-- ==== Sys2Proof/Word.lean ====
section
/-! DEFINITION. The machine's word and byte types, and the modulus of word arithmetic (00_scope.md R9). -/

namespace Sys2Proof

/-- A byte of code, calldata, memory or return-data: 8 bits (R9 MEM_BYTE_BITS, OPCODE_BITS). -/
abbrev Byte := BitVec 8

/-- A stack word: a 256-bit unsigned integer (R9 WORD_BITS). -/
abbrev Word := BitVec 256

/-- 2^256, the modulus of ADD, SUB and MUL and the bound of Push (R9, R40, R135). -/
abbrev wordModulus : Nat := 2 ^ 256

end Sys2Proof
end

