-- ==== Sys2Proof/Config.lean ====
section
/-! DEFINITION. What is fixed for a machine before any run: the fixed parameters of 00_scope.md R9, the open
parameters of R10 as the record `Config` (plain data, one field a parameter), the operation kinds and the
registry's types (30_encoding.md R93, R95), and the fault kinds of 60_exceptions.md R271. The functions over
these types stand in Decode.lean and under Machine/. -/

namespace Sys2Proof

/-- The largest stack depth (R9 STACK_LIMIT). -/
abbrev stackLimit : Nat := 1024

/-- The unit in which memory grows, in bytes (R9 MEM_GRANULE). -/
abbrev memGranule : Nat := 32

/-- A limit or a step budget: a natural number, or ∞ (R10, R46). -/
inductive Bound where
  | finite (n : Nat)
  | infinite
deriving DecidableEq, Repr

/-- Which popped operand of SUB and DIV is the left one (R10 OPERAND_ORDER, R130). -/
inductive OperandOrder where
  /-- The second popped (the deeper element) is the left operand: the spec's default. -/
  | deepLeft
  /-- The first popped (the top) is the left operand. -/
  | topLeft
deriving DecidableEq, Repr

/-- The 77 registered operation kinds, a closed set (R2, R95): `push n`, `dup n` and `swap n` stand for
PUSH(n+1), DUP(n+1) and SWAP(n+1). An operation kind also serves as its mnemonic (R93). -/
inductive Op where
  | stop | add | mul | sub | div | pop | mstore8 | jump | jumpi | pc | msize | jumpdest
  | push (n : Fin 32)
  | dup (n : Fin 16)
  | swap (n : Fin 16)
  | ret
deriving DecidableEq, Repr

/-- What one of the registry's 256 slots holds (R93): one operation kind, or Invalid. -/
inductive Kind where
  | op (o : Op)
  | invalid
deriving DecidableEq, Repr

/-- One registered instruction: "immutable {opcode byte, name, effect}" (R93). -/
structure Registration where
  byte   : Byte
  name   : Op
  effect : Op
deriving DecidableEq, Repr

/-- The registry, held by its registered entries; a byte that no entry names is a slot that holds Invalid
(R93, R96; the slot of every byte is `Registry.slot` in Decode.lean). -/
structure Registry where
  entries : List Registration
deriving DecidableEq, Repr

/-- The open parameters (R10). OPCODE_MAP is held by the registry built from it. -/
structure Config where
  /-- The instruction registry (R48), which holds OPCODE_MAP. -/
  registry     : Registry
  /-- OPERAND_ORDER. -/
  operandOrder : OperandOrder
  /-- MEM_LIMIT. -/
  memLimit     : Bound
  /-- RETDATA_LIMIT. -/
  retdataLimit : Bound
  /-- CODE_MAX. -/
  codeMax      : Bound
deriving DecidableEq, Repr

/-- The fault kinds (R271). `duplicateOpcode` is raised by registry construction only (R97, R282). -/
inductive FaultKind where
  | unknownOpcode
  | invalidCodeOffset
  | invalidJumpDestination
  | stackUnderflow
  | stackOverflow
  | invalidStackItem
  | invalidMemoryAccess
  | invalidMemoryValue
  | invalidCalldataAccess
  | memoryLimitExceeded
  | returnDataLimitExceeded
  | duplicateOpcode
deriving DecidableEq, Repr

end Sys2Proof
end

