-- ==== Sys2Proof/Syntax.lean ====
section
/-! DEFINITION. The instructions: one constructor for each row of spec/opcode_table.json (00_scope.md R2). -/

namespace Sys2Proof

/-- The 77 instructions. Operands are implicit on the stack (30_encoding.md R90); PUSHn alone carries one, its
immediate as the Word that 30_encoding.md R99 reads from the code. -/
inductive Instr where
  | stop
  | add
  | mul
  | sub
  | div
  | pop
  | mstore8
  | jump
  | jumpi
  | pc
  | msize
  | jumpdest
  | push1 (imm : Word)
  | push2 (imm : Word)
  | push3 (imm : Word)
  | push4 (imm : Word)
  | push5 (imm : Word)
  | push6 (imm : Word)
  | push7 (imm : Word)
  | push8 (imm : Word)
  | push9 (imm : Word)
  | push10 (imm : Word)
  | push11 (imm : Word)
  | push12 (imm : Word)
  | push13 (imm : Word)
  | push14 (imm : Word)
  | push15 (imm : Word)
  | push16 (imm : Word)
  | push17 (imm : Word)
  | push18 (imm : Word)
  | push19 (imm : Word)
  | push20 (imm : Word)
  | push21 (imm : Word)
  | push22 (imm : Word)
  | push23 (imm : Word)
  | push24 (imm : Word)
  | push25 (imm : Word)
  | push26 (imm : Word)
  | push27 (imm : Word)
  | push28 (imm : Word)
  | push29 (imm : Word)
  | push30 (imm : Word)
  | push31 (imm : Word)
  | push32 (imm : Word)
  | dup1
  | dup2
  | dup3
  | dup4
  | dup5
  | dup6
  | dup7
  | dup8
  | dup9
  | dup10
  | dup11
  | dup12
  | dup13
  | dup14
  | dup15
  | dup16
  | swap1
  | swap2
  | swap3
  | swap4
  | swap5
  | swap6
  | swap7
  | swap8
  | swap9
  | swap10
  | swap11
  | swap12
  | swap13
  | swap14
  | swap15
  | swap16
  | ret
deriving DecidableEq, Repr

end Sys2Proof
end

