-- ==== Sys2Proof/WellFormed.lean ====
section
/-! DEFINITION. Which instruction terms an encoding can hold. -/

namespace Sys2Proof

/-- A well-formed instruction: the immediate of PUSHn fits its n bytes, that is, it is below 256^n
(30_encoding.md R99, 41_stack_ops.md R151 to R182); no other instruction has a field to check. -/
def Instr.wellFormed : Instr → Bool
  | .stop => true
  | .add => true
  | .mul => true
  | .sub => true
  | .div => true
  | .pop => true
  | .mstore8 => true
  | .jump => true
  | .jumpi => true
  | .pc => true
  | .msize => true
  | .jumpdest => true
  | .push1 imm => decide (imm.toNat < 256 ^ 1)
  | .push2 imm => decide (imm.toNat < 256 ^ 2)
  | .push3 imm => decide (imm.toNat < 256 ^ 3)
  | .push4 imm => decide (imm.toNat < 256 ^ 4)
  | .push5 imm => decide (imm.toNat < 256 ^ 5)
  | .push6 imm => decide (imm.toNat < 256 ^ 6)
  | .push7 imm => decide (imm.toNat < 256 ^ 7)
  | .push8 imm => decide (imm.toNat < 256 ^ 8)
  | .push9 imm => decide (imm.toNat < 256 ^ 9)
  | .push10 imm => decide (imm.toNat < 256 ^ 10)
  | .push11 imm => decide (imm.toNat < 256 ^ 11)
  | .push12 imm => decide (imm.toNat < 256 ^ 12)
  | .push13 imm => decide (imm.toNat < 256 ^ 13)
  | .push14 imm => decide (imm.toNat < 256 ^ 14)
  | .push15 imm => decide (imm.toNat < 256 ^ 15)
  | .push16 imm => decide (imm.toNat < 256 ^ 16)
  | .push17 imm => decide (imm.toNat < 256 ^ 17)
  | .push18 imm => decide (imm.toNat < 256 ^ 18)
  | .push19 imm => decide (imm.toNat < 256 ^ 19)
  | .push20 imm => decide (imm.toNat < 256 ^ 20)
  | .push21 imm => decide (imm.toNat < 256 ^ 21)
  | .push22 imm => decide (imm.toNat < 256 ^ 22)
  | .push23 imm => decide (imm.toNat < 256 ^ 23)
  | .push24 imm => decide (imm.toNat < 256 ^ 24)
  | .push25 imm => decide (imm.toNat < 256 ^ 25)
  | .push26 imm => decide (imm.toNat < 256 ^ 26)
  | .push27 imm => decide (imm.toNat < 256 ^ 27)
  | .push28 imm => decide (imm.toNat < 256 ^ 28)
  | .push29 imm => decide (imm.toNat < 256 ^ 29)
  | .push30 imm => decide (imm.toNat < 256 ^ 30)
  | .push31 imm => decide (imm.toNat < 256 ^ 31)
  | .push32 imm => decide (imm.toNat < 256 ^ 32)
  | .dup1 => true
  | .dup2 => true
  | .dup3 => true
  | .dup4 => true
  | .dup5 => true
  | .dup6 => true
  | .dup7 => true
  | .dup8 => true
  | .dup9 => true
  | .dup10 => true
  | .dup11 => true
  | .dup12 => true
  | .dup13 => true
  | .dup14 => true
  | .dup15 => true
  | .dup16 => true
  | .swap1 => true
  | .swap2 => true
  | .swap3 => true
  | .swap4 => true
  | .swap5 => true
  | .swap6 => true
  | .swap7 => true
  | .swap8 => true
  | .swap9 => true
  | .swap10 => true
  | .swap11 => true
  | .swap12 => true
  | .swap13 => true
  | .swap14 => true
  | .swap15 => true
  | .swap16 => true
  | .ret => true

end Sys2Proof
end

