-- ==== Sys2Proof/Decode.lean ====
section
/-! DEFINITION. The encoding: byte order, the registry and its construction, the decoder and the encoder, and the
jump-destination analysis (30_encoding.md). Decoding is total: bytes give an instruction, or the unregistered byte
that stands first, or the end of the code. -/

namespace Sys2Proof

/-! ### Byte order (00_scope.md R15) -/

/-- `BE(b_0 .. b_(m-1))`: the big-endian value of a byte sequence, 0 for the empty one (R15). -/
def beValue : List Byte → Nat
  | [] => 0
  | b :: bs => b.toNat * 256 ^ bs.length + beValue bs

/-- The `n` bytes of `v` in big-endian order: the encoder's inverse of `beValue`. -/
def beBytes : Nat → Nat → List Byte
  | 0, _ => []
  | n + 1, v => BitVec.ofNat 8 (v / 256 ^ n) :: beBytes n v

/-! ### Operation kinds -/

/-- How many immediate bytes follow the opcode of a kind (R90): n for PUSHn, else none. -/
def Op.immWidth : Op → Nat
  | .push n => n.val + 1
  | _ => 0

/-- 0 to 31: `Op.push` of these is PUSH1 to PUSH32. -/
def pushIndices : List (Fin 32) :=
  [0, 1, 2, 3, 4, 5, 6, 7, 8, 9, 10, 11, 12, 13, 14, 15,
   16, 17, 18, 19, 20, 21, 22, 23, 24, 25, 26, 27, 28, 29, 30, 31]

/-- 0 to 15: `Op.dup` and `Op.swap` of these are DUP1 to DUP16 and SWAP1 to SWAP16. -/
def depthIndices : List (Fin 16) := [0, 1, 2, 3, 4, 5, 6, 7, 8, 9, 10, 11, 12, 13, 14, 15]

/-- The 77 registered kinds (R2). -/
def Op.all : List Op :=
  [.stop, .add, .mul, .sub, .div, .pop, .mstore8, .jump, .jumpi, .pc, .msize, .jumpdest] ++
  pushIndices.map .push ++ depthIndices.map .dup ++ depthIndices.map .swap ++ [.ret]

/-! ### The registry (R93 to R97) -/

/-- The operation kind that slot `b` holds (R93): that of the entry registered at `b`, else Invalid. -/
def Registry.slot (r : Registry) (b : Byte) : Kind :=
  match r.entries.find? (fun e => e.byte == b) with
  | some e => .op e.effect
  | none => .invalid

/-- The slot a mnemonic is mapped to: "and name → instruction" (R48, R93). -/
def Registry.slotOfName (r : Registry) (name : Op) : Option Byte :=
  (r.entries.find? (fun e => e.name == name)).map (·.byte)

/-- The opcode byte of an operation kind, OPCODE_MAP read forward (R91, R92); none where it is not registered. -/
def Registry.byteOf (r : Registry) (o : Op) : Option Byte :=
  (r.entries.find? (fun e => e.effect == o)).map (·.byte)

/-- Registering one more instruction: DuplicateOpcode when its byte or its name is taken (R97). -/
def Registry.register (r : Registry) (e : Registration) : Except FaultKind Registry :=
  if r.entries.any (fun x => x.byte == e.byte || x.name == e.name) then .error .duplicateOpcode
  else .ok { entries := r.entries ++ [e] }

/-- Registry construction from a list of registrations, onto what is registered already (R97). -/
def Registry.registerAll (r : Registry) : List Registration → Except FaultKind Registry
  | [] => .ok r
  | e :: es =>
    match r.register e with
    | .ok r' => r'.registerAll es
    | .error k => .error k

/-- "Registry construction fails DuplicateOpcode when two instructions are registered at one opcode byte or under
one mnemonic" (R97). -/
def Registry.build (es : List Registration) : Except FaultKind Registry :=
  Registry.registerAll { entries := [] } es

/-- PUSH1..PUSH32 occupy 32 consecutive byte values in increasing n (R92). -/
def Registry.pushConsecutive (r : Registry) : Bool :=
  pushIndices.all fun n =>
    (r.byteOf (.push n)).map BitVec.toNat == (r.byteOf (.push 0)).map (fun b => b.toNat + n.val)

/-- A valid registry: it passes the DuplicateOpcode check (R97), registers every one of the 77 kinds under its own
name (R2, R93, R98), and keeps PUSH1..PUSH32 consecutive (R92). -/
def Registry.wf (r : Registry) : Bool :=
  decide ((r.entries.map (·.byte)).Nodup) && decide ((r.entries.map (·.name)).Nodup) &&
  r.entries.all (fun e => e.name == e.effect) && Op.all.all (fun o => (r.byteOf o).isSome) &&
  r.pushConsecutive

/-- A registration of a kind under its own name. -/
def Registration.of (byte : Byte) (o : Op) : Registration := { byte := byte, name := o, effect := o }

/-- The opcode table of R91. -/
def opcodeTable : List Registration :=
  [.of 0x00 .stop, .of 0x01 .add, .of 0x02 .mul, .of 0x03 .sub, .of 0x04 .div, .of 0x50 .pop, .of 0x53 .mstore8,
   .of 0x56 .jump, .of 0x57 .jumpi, .of 0x58 .pc, .of 0x59 .msize, .of 0x5B .jumpdest] ++
  pushIndices.map (fun n => .of (BitVec.ofNat 8 (0x60 + n.val)) (.push n)) ++
  depthIndices.map (fun n => .of (BitVec.ofNat 8 (0x80 + n.val)) (.dup n)) ++
  depthIndices.map (fun n => .of (BitVec.ofNat 8 (0x90 + n.val)) (.swap n)) ++
  [.of 0xF3 .ret]

/-- The registry of R91, OPCODE_MAP's default (R10, R300). -/
def Registry.default : Registry := { entries := opcodeTable }

/-- A valid configuration: its registry passes its check, and MEM_LIMIT is a multiple of 32 or ∞ (R10). -/
def Config.wf (c : Config) : Bool :=
  c.registry.wf &&
  match c.memLimit with
  | .finite n => n % memGranule == 0
  | .infinite => true

/-- The defaults of R10: the table of R91, DeepLeft, and no limits. -/
def Config.default : Config :=
  { registry := Registry.default, operandOrder := .deepLeft, memLimit := .infinite, retdataLimit := .infinite,
    codeMax := .infinite }

/-! ### Instructions and their kinds -/

/-- PUSH(n+1) with its immediate. -/
def pushInstr (n : Fin 32) (imm : Word) : Instr :=
  match n with
  | ⟨0, _⟩ => .push1 imm
  | ⟨1, _⟩ => .push2 imm
  | ⟨2, _⟩ => .push3 imm
  | ⟨3, _⟩ => .push4 imm
  | ⟨4, _⟩ => .push5 imm
  | ⟨5, _⟩ => .push6 imm
  | ⟨6, _⟩ => .push7 imm
  | ⟨7, _⟩ => .push8 imm
  | ⟨8, _⟩ => .push9 imm
  | ⟨9, _⟩ => .push10 imm
  | ⟨10, _⟩ => .push11 imm
  | ⟨11, _⟩ => .push12 imm
  | ⟨12, _⟩ => .push13 imm
  | ⟨13, _⟩ => .push14 imm
  | ⟨14, _⟩ => .push15 imm
  | ⟨15, _⟩ => .push16 imm
  | ⟨16, _⟩ => .push17 imm
  | ⟨17, _⟩ => .push18 imm
  | ⟨18, _⟩ => .push19 imm
  | ⟨19, _⟩ => .push20 imm
  | ⟨20, _⟩ => .push21 imm
  | ⟨21, _⟩ => .push22 imm
  | ⟨22, _⟩ => .push23 imm
  | ⟨23, _⟩ => .push24 imm
  | ⟨24, _⟩ => .push25 imm
  | ⟨25, _⟩ => .push26 imm
  | ⟨26, _⟩ => .push27 imm
  | ⟨27, _⟩ => .push28 imm
  | ⟨28, _⟩ => .push29 imm
  | ⟨29, _⟩ => .push30 imm
  | ⟨30, _⟩ => .push31 imm
  | ⟨31, _⟩ => .push32 imm
  | ⟨k + 32, h⟩ => absurd h (by omega)

/-- DUP(n+1). -/
def dupInstr (n : Fin 16) : Instr :=
  match n with
  | ⟨0, _⟩ => .dup1
  | ⟨1, _⟩ => .dup2
  | ⟨2, _⟩ => .dup3
  | ⟨3, _⟩ => .dup4
  | ⟨4, _⟩ => .dup5
  | ⟨5, _⟩ => .dup6
  | ⟨6, _⟩ => .dup7
  | ⟨7, _⟩ => .dup8
  | ⟨8, _⟩ => .dup9
  | ⟨9, _⟩ => .dup10
  | ⟨10, _⟩ => .dup11
  | ⟨11, _⟩ => .dup12
  | ⟨12, _⟩ => .dup13
  | ⟨13, _⟩ => .dup14
  | ⟨14, _⟩ => .dup15
  | ⟨15, _⟩ => .dup16
  | ⟨k + 16, h⟩ => absurd h (by omega)

/-- SWAP(n+1). -/
def swapInstr (n : Fin 16) : Instr :=
  match n with
  | ⟨0, _⟩ => .swap1
  | ⟨1, _⟩ => .swap2
  | ⟨2, _⟩ => .swap3
  | ⟨3, _⟩ => .swap4
  | ⟨4, _⟩ => .swap5
  | ⟨5, _⟩ => .swap6
  | ⟨6, _⟩ => .swap7
  | ⟨7, _⟩ => .swap8
  | ⟨8, _⟩ => .swap9
  | ⟨9, _⟩ => .swap10
  | ⟨10, _⟩ => .swap11
  | ⟨11, _⟩ => .swap12
  | ⟨12, _⟩ => .swap13
  | ⟨13, _⟩ => .swap14
  | ⟨14, _⟩ => .swap15
  | ⟨15, _⟩ => .swap16
  | ⟨k + 16, h⟩ => absurd h (by omega)

/-- The instruction of a kind, with the immediate that the code gives it (used by PUSHn only). -/
def Op.toInstr (o : Op) (imm : Word) : Instr :=
  match o with
  | .stop => .stop
  | .add => .add
  | .mul => .mul
  | .sub => .sub
  | .div => .div
  | .pop => .pop
  | .mstore8 => .mstore8
  | .jump => .jump
  | .jumpi => .jumpi
  | .pc => .pc
  | .msize => .msize
  | .jumpdest => .jumpdest
  | .push n => pushInstr n imm
  | .dup n => dupInstr n
  | .swap n => swapInstr n
  | .ret => .ret

/-- The kind of an instruction. -/
def Instr.op : Instr → Op
  | .stop => .stop
  | .add => .add
  | .mul => .mul
  | .sub => .sub
  | .div => .div
  | .pop => .pop
  | .mstore8 => .mstore8
  | .jump => .jump
  | .jumpi => .jumpi
  | .pc => .pc
  | .msize => .msize
  | .jumpdest => .jumpdest
  | .push1 _ => .push 0
  | .push2 _ => .push 1
  | .push3 _ => .push 2
  | .push4 _ => .push 3
  | .push5 _ => .push 4
  | .push6 _ => .push 5
  | .push7 _ => .push 6
  | .push8 _ => .push 7
  | .push9 _ => .push 8
  | .push10 _ => .push 9
  | .push11 _ => .push 10
  | .push12 _ => .push 11
  | .push13 _ => .push 12
  | .push14 _ => .push 13
  | .push15 _ => .push 14
  | .push16 _ => .push 15
  | .push17 _ => .push 16
  | .push18 _ => .push 17
  | .push19 _ => .push 18
  | .push20 _ => .push 19
  | .push21 _ => .push 20
  | .push22 _ => .push 21
  | .push23 _ => .push 22
  | .push24 _ => .push 23
  | .push25 _ => .push 24
  | .push26 _ => .push 25
  | .push27 _ => .push 26
  | .push28 _ => .push 27
  | .push29 _ => .push 28
  | .push30 _ => .push 29
  | .push31 _ => .push 30
  | .push32 _ => .push 31
  | .dup1 => .dup 0
  | .dup2 => .dup 1
  | .dup3 => .dup 2
  | .dup4 => .dup 3
  | .dup5 => .dup 4
  | .dup6 => .dup 5
  | .dup7 => .dup 6
  | .dup8 => .dup 7
  | .dup9 => .dup 8
  | .dup10 => .dup 9
  | .dup11 => .dup 10
  | .dup12 => .dup 11
  | .dup13 => .dup 12
  | .dup14 => .dup 13
  | .dup15 => .dup 14
  | .dup16 => .dup 15
  | .swap1 => .swap 0
  | .swap2 => .swap 1
  | .swap3 => .swap 2
  | .swap4 => .swap 3
  | .swap5 => .swap 4
  | .swap6 => .swap 5
  | .swap7 => .swap 6
  | .swap8 => .swap 7
  | .swap9 => .swap 8
  | .swap10 => .swap 9
  | .swap11 => .swap 10
  | .swap12 => .swap 11
  | .swap13 => .swap 12
  | .swap14 => .swap 13
  | .swap15 => .swap 14
  | .swap16 => .swap 15
  | .ret => .ret

/-- The immediate an instruction carries; 0 for an instruction without one. -/
def Instr.imm : Instr → Word
  | .push1 imm => imm
  | .push2 imm => imm
  | .push3 imm => imm
  | .push4 imm => imm
  | .push5 imm => imm
  | .push6 imm => imm
  | .push7 imm => imm
  | .push8 imm => imm
  | .push9 imm => imm
  | .push10 imm => imm
  | .push11 imm => imm
  | .push12 imm => imm
  | .push13 imm => imm
  | .push14 imm => imm
  | .push15 imm => imm
  | .push16 imm => imm
  | .push17 imm => imm
  | .push18 imm => imm
  | .push19 imm => imm
  | .push20 imm => imm
  | .push21 imm => imm
  | .push22 imm => imm
  | .push23 imm => imm
  | .push24 imm => imm
  | .push25 imm => imm
  | .push26 imm => imm
  | .push27 imm => imm
  | .push28 imm => imm
  | .push29 imm => imm
  | .push30 imm => imm
  | .push31 imm => imm
  | .push32 imm => imm
  | _ => 0

/-! ### Decoding (R99, R102, R111) -/

/-- `ImmRead(p, n)`: the bytes present among CODE[p .. p+n-1], taken as one big-endian number, so that missing
bytes count as leading zeros (R99). -/
def immRead (code : List Byte) (p n : Nat) : Word := BitVec.ofNat 256 (beValue ((code.drop p).take n))

/-- What decoding finds at the head of a byte sequence. -/
inductive Decoded where
  | instr (i : Instr)
  /-- The first byte is unregistered (R96). -/
  | unknownOpcode (b : Byte)
  /-- There is no byte (R112). -/
  | endOfCode
deriving DecidableEq, Repr

/-- The decoder: the first byte selects the slot (R93, R102), and PUSHn takes its immediate from the bytes that
follow (R99). -/
def decode (r : Registry) : List Byte → Decoded
  | [] => .endOfCode
  | b :: rest =>
    match r.slot b with
    | .op o => .instr (o.toInstr (immRead rest 0 o.immWidth))
    | .invalid => .unknownOpcode b

/-- The longest instruction, PUSH32, in bytes (R90). -/
abbrev maxInstrBytes : Nat := 33

/-- The bytes of an instruction given as a number whose bits `spec/opcode_table.json` numbers: byte k is bits
8k+7..8k, and every bit from `nbits` up is 0. -/
def tableBytes (nbits w : Nat) : List Byte :=
  (List.range maxInstrBytes).map fun k => BitVec.ofNat 8 ((w % 2 ^ nbits) / 256 ^ k)

/-- The instruction the decoder reads from a word of the opcode table, under the registry of R91. -/
def decodeTableWord (nbits w : Nat) : Option Instr :=
  match decode Registry.default (tableBytes nbits w) with
  | .instr i => some i
  | _ => none

/-! ### Encoding (R90, R91) -/

/-- An instruction's length in bytes: 1, or 1 + n for PUSHn (R90). -/
def Instr.length (i : Instr) : Nat := 1 + i.op.immWidth

/-- The bytes of an instruction: its opcode byte, then for PUSHn its n immediate bytes, most significant first
(R90, R91). A kind that the registry does not hold has no encoding; the empty sequence stands for that. -/
def encode (r : Registry) (i : Instr) : List Byte :=
  match r.byteOf i.op with
  | some b => b :: beBytes i.op.immWidth i.imm.toNat
  | none => []

/-! ### Jump-destination analysis (R100) -/

/-- The operand bytes the analysis steps over after the byte `op`: op − PUSH1_BYTE + 1 where
PUSH1_BYTE ≤ op ≤ PUSH32_BYTE, else none (R100). It looks at byte values only. -/
def Registry.operandWidth (r : Registry) (op : Byte) : Nat :=
  match r.byteOf (.push 0), r.byteOf (.push 31) with
  | some p1, some p32 => if p1.toNat ≤ op.toNat ∧ op.toNat ≤ p32.toNat then op.toNat - p1.toNat + 1 else 0
  | _, _ => 0

/-- Whether a byte is JUMPDEST_BYTE (R100). -/
def Registry.isJumpdest (r : Registry) (op : Byte) : Bool := r.byteOf .jumpdest == some op

/-- The pass of R100 from offset `i` on, over the bytes that stand there; `skip` operand bytes are still to be
stepped over. -/
def jumpDestsFrom (r : Registry) : Nat → Nat → List Byte → List Nat
  | _, _, [] => []
  | i, skip + 1, _ :: rest => jumpDestsFrom r (i + 1) skip rest
  | i, 0, op :: rest =>
    if r.isJumpdest op then i :: jumpDestsFrom r (i + 1) (r.operandWidth op) rest
    else jumpDestsFrom r (i + 1) (r.operandWidth op) rest

/-- The jump-destination set JDS of a code buffer, as a rising list of offsets (R47, R100). -/
def jumpDests (r : Registry) (code : List Byte) : List Nat := jumpDestsFrom r 0 0 code

end Sys2Proof
end

