-- ==== Sys2Proof/Machine/State.lean ====
section
/-! DEFINITION. The state of the machine as plain data (10_state.md R31), the reasons a step can stop, and the state
after reset, which on this hardware is the start of a run (70_reset_and_hazards.md R300). -/

namespace Sys2Proof.Machine

/-- A byte sequence of a given length, held sparsely: a byte at an offset below `len` that `cells` does not list
is 0. Linear memory (R36) and the return-data buffer (R39) are of this type: either may be 2^256 bytes long. -/
structure Memory where
  /-- The length in bytes; MLEN for linear memory. -/
  len   : Nat
  /-- The bytes other than 0, in rising order of their offsets. -/
  cells : List Host.Cell
deriving DecidableEq, Repr

/-- The status register (R44). -/
inductive Status where
  | running
  | stopped
  | faulted
  | suspended
deriving DecidableEq, Repr

/-- The fault record (R45, R273). `none` in `opcode` or `target` is that field's valid bit at 0. -/
structure FaultRecord where
  kind   : FaultKind
  opcode : Option Byte
  /-- The offset of the faulting instruction's opcode byte (R273). -/
  pc     : Int
  target : Option Word
deriving DecidableEq, Repr

/-- The architectural state of one context, with the configuration it runs under (R31, R48). -/
structure State where
  /-- The registry and the open parameters (R10, R48): read-only, no instruction writes them. -/
  config     : Config
  /-- CODE (R32): immutable. -/
  code       : List Byte
  /-- The program counter (R34). An integer, so that the check of R111 for a negative pc can be written; every
  reachable value is a natural number (R113). -/
  pc         : Int
  /-- The word stack, top first (R35). -/
  stack      : List Word
  /-- Linear memory M with its length MLEN (R36). -/
  memory     : Memory
  /-- The calldata buffer CD (R37). -/
  calldata   : List Byte
  /-- The stopped flag (R38). -/
  stopped    : Bool
  /-- The return-data buffer RD (R39). -/
  returnData : Memory
  /-- The jump-destination set JDS, in rising order (R47). -/
  jds        : List Nat
  /-- The status register (R44). -/
  status     : Status
  /-- The fault record, `none` until a fault is raised (R45). -/
  fault      : Option FaultRecord
  /-- The budget counter (R46). -/
  budget     : Bound
deriving DecidableEq, Repr

/-- Why the machine stops without a next state. A fault the spec describes is not one of these: its step answers
the next state, with status Faulted and the fault record written (R270, R277). -/
inductive Fault where
  /-- Raised by `step` when the run has ended (status is not Running): the machine has no step there (R110, R316).
  Safe: the hardware takes none either. -/
  | runEnded (status : Status)
deriving DecidableEq, Repr

/-- What the machine gives no meaning. -/
inductive Refusal where
  /-- Answered by `exec` for an instruction with no meaning yet; no arm answers it now. Safe. -/
  | notModelled (mnemonic : String)
  /-- Answered by `startRun` for a configuration that fails its checks: "no run starts" (R97). Safe. -/
  | invalidConfiguration
  /-- Answered by `startRun` for code longer than CODE_MAX: no context and no outcome (R300). Safe. -/
  | codeTooLong
  /-- Answered by `resume` for a context that is not Suspended (R284). Safe. -/
  | notSuspended
deriving DecidableEq, Repr

/-- The empty byte sequence. -/
def Memory.empty : Memory := { len := 0, cells := [] }

/-- The state after reset, that is, at the start of a run (R300, R301), with the host's inputs at the values that
notes/assumptions/2.md and 3.md name: the default configuration of R10, empty CODE, no calldata, budget ∞. -/
def State.reset : State :=
  { config     := Config.default
    code       := []
    pc         := 0
    stack      := []
    memory     := Memory.empty
    calldata   := []
    stopped    := false
    returnData := Memory.empty
    jds        := []
    status     := .running
    fault      := none
    budget     := .infinite }

end Sys2Proof.Machine
end

