-- ==== Sys2Proof/Machine/Ops.lean ====
section
/-! DEFINITION. The named operations: field updates, limits and the budget, the register encodings of status and fault
kind, raising a fault, and the stack, memory and calldata primitives (10_state.md R40 to R46, 20_memory.md). -/

namespace Sys2Proof

/-! ### Limits and the budget counter -/

/-- Whether a length exceeds a limit (R62, R261, R300); nothing exceeds ∞. -/
def Bound.exceededBy : Bound → Nat → Bool
  | .finite limit, n => decide (limit < n)
  | .infinite, _ => false

/-- Whether a budget is used up (R110). -/
def Bound.isZero : Bound → Bool
  | .finite n => n == 0
  | .infinite => false

/-- A budget less one step; ∞ − 1 = ∞ (R46). -/
def Bound.pred : Bound → Bound
  | .finite n => .finite (n - 1)
  | .infinite => .infinite

/-- The 4-bit kind code of a fault kind (R271). -/
def FaultKind.code : FaultKind → BitVec 4
  | .unknownOpcode => 1
  | .invalidCodeOffset => 2
  | .invalidJumpDestination => 3
  | .stackUnderflow => 4
  | .stackOverflow => 5
  | .invalidStackItem => 6
  | .invalidMemoryAccess => 7
  | .invalidMemoryValue => 8
  | .invalidCalldataAccess => 9
  | .memoryLimitExceeded => 10
  | .returnDataLimitExceeded => 11
  | .duplicateOpcode => 15

end Sys2Proof

namespace Sys2Proof.Machine

/-! ### Updates of one field -/

def State.withPc (s : State) (v : Int) : State := { s with pc := v }
def State.withStack (s : State) (v : List Word) : State := { s with stack := v }
def State.withMemory (s : State) (v : Memory) : State := { s with memory := v }
def State.withStopped (s : State) (v : Bool) : State := { s with stopped := v }
def State.withReturnData (s : State) (v : Memory) : State := { s with returnData := v }
def State.withStatus (s : State) (v : Status) : State := { s with status := v }
def State.withFault (s : State) (v : Option FaultRecord) : State := { s with fault := v }
def State.withBudget (s : State) (v : Bound) : State := { s with budget := v }

/-! ### Register encodings -/

/-- The 2-bit encoding of the status register (R44). -/
def Status.code : Status → BitVec 2
  | .running => 0
  | .stopped => 1
  | .faulted => 2
  | .suspended => 3

/-- The `kind` field of the fault record register: 0 while no fault is recorded (R45, R271). -/
def State.faultKindField (s : State) : BitVec 4 :=
  match s.fault with
  | some r => r.kind.code
  | none => 0

/-! ### Raising a fault -/

/-- Fault entry (R273, R277): the fault record is written and status becomes Faulted. Nothing else is saved and
control goes nowhere; there is no return from a fault (R279), so no operation stands beside this one. -/
def State.takeFault (s : State) (kind : FaultKind) (opcode : Option Byte) (opc : Int) (target : Option Word) : State :=
  { s with fault := some { kind := kind, opcode := opcode, pc := opc, target := target }, status := .faulted }

/-- The result of a primitive: its value with the state after it, or the fault it raises with the state that the
primitives before it left (R18, R275, R278). -/
inductive Prim (α : Type) where
  | ok (value : α) (s : State)
  | raise (kind : FaultKind) (target : Option Word) (s : State)
deriving Repr

/-- Sequence in a rule's pseudocode: what follows a `raise` is not executed (R18). -/
def Prim.andThen {α β : Type} (p : Prim α) (f : α → State → Prim β) : Prim β :=
  match p with
  | .ok v s => f v s
  | .raise k t s => .raise k t s

/-- Runs an instruction's pseudocode on the state that decode leaves, in which pc is opc + 1 (R34, R111). A fault
raised inside it is taken with the instruction's opcode byte and its offset opc (R273). -/
def runInstr (o : Op) (body : State → Prim Unit) (s : State) : Host.Outcome State Fault Refusal :=
  match body s with
  | .ok _ t => .next t
  | .raise k target t => .next (t.takeFault k (s.config.registry.byteOf o) (s.pc - 1) target)

/-! ### Stack primitives (R40 to R43) -/

/-- `Push(v)`: StackOverflow, then InvalidStackItem, then the push (R40). -/
def push (v : Int) (s : State) : Prim Unit :=
  if s.stack.length + 1 > stackLimit then .raise .stackOverflow none s
  else if v < 0 ∨ (wordModulus : Int) ≤ v then .raise .invalidStackItem none s
  else .ok () (s.withStack (BitVec.ofInt 256 v :: s.stack))

/-- `Pop()` (R41). -/
def pop (s : State) : Prim Word :=
  match s.stack with
  | [] => .raise .stackUnderflow none s
  | w :: rest => .ok w (s.withStack rest)

/-- `Peek(n)` (R42). -/
def peek (n : Nat) (s : State) : Prim Word :=
  match s.stack[n]? with
  | some w => .ok w s
  | none => .raise .stackUnderflow none s

/-- `Swap(n)`: exchanges S[0] and S[n] (R43). -/
def swap (n : Nat) (s : State) : Prim Unit :=
  match s.stack[0]?, s.stack[n]? with
  | some top, some deep => .ok () (s.withStack ((s.stack.set 0 deep).set n top))
  | _, _ => .raise .stackUnderflow none s

/-! ### Byte sequences -/

/-- What an offset that is not listed reads as: 0 (R36, R63). -/
def unlistedByte : Byte := 0

/-- The listed byte at `k`, else what an unlisted offset reads as. -/
def cellsGet (k : Nat) : List Host.Cell → Byte
  | [] => unlistedByte
  | (a, b) :: rest => if a = k then b else cellsGet k rest

/-- The list with the byte at `k` set to `b`, kept canonical: rising, and no entry equal to `unlistedByte`. -/
def cellsSet (k : Nat) (b : Byte) : List Host.Cell → List Host.Cell
  | [] => if b = unlistedByte then [] else [(k, b)]
  | (a, c) :: rest =>
    if k < a then (if b = unlistedByte then (a, c) :: rest else (k, b) :: (a, c) :: rest)
    else if k = a then (if b = unlistedByte then rest else (k, b) :: rest)
    else (a, c) :: cellsSet k b rest

/-- Offsets strictly rising, all at least `lo` and below `hi`, and no entry equal to `unlistedByte`. -/
def cellsWf (lo hi : Nat) : List Host.Cell → Bool
  | [] => true
  | (a, b) :: rest => decide (lo ≤ a) && decide (a < hi) && decide (b ≠ unlistedByte) && cellsWf (a + 1) hi rest

/-- The canonical form of a byte sequence: equal sequences are equal data. -/
def Memory.wf (m : Memory) : Bool := cellsWf 0 m.len m.cells

/-- The byte at offset `k`: M[k] below the length, 0 at or beyond it (R36, R63). -/
def Memory.get (m : Memory) (k : Nat) : Byte := if k < m.len then cellsGet k m.cells else 0

/-- All bytes of a sequence in order; for reading a short one out in full. -/
def Memory.bytes (m : Memory) : List Byte := (List.range m.len).map m.get

/-- `M ++ zeros`, to length `n` where that is longer (R62). -/
def Memory.grow (m : Memory) (n : Nat) : Memory := { m with len := max m.len n }

/-- `M[k] <- b` (R62). -/
def Memory.set (m : Memory) (k : Nat) (b : Byte) : Memory := { m with cells := cellsSet k b m.cells }

/-- `ExpandLen(k) = 32 · ceil((k + 1) / 32)` (R61). -/
def expandLen (k : Nat) : Nat := memGranule * ((k + 1 + (memGranule - 1)) / memGranule)

/-- The listed bytes of `[k, k + n)`, with their offsets counted from `k`. -/
def cellsRange (k n : Nat) (cells : List Host.Cell) : List Host.Cell :=
  (cells.filter fun c => decide (k ≤ c.1) && decide (c.1 < k + n)).map fun c => (c.1 - k, c.2)

/-- `MemRead(k, n)`: exactly n bytes, byte i being M[k + i] below MLEN and 0 beyond (R64). It expands nothing. -/
def Memory.range (m : Memory) (k n : Nat) : Memory :=
  { len := n, cells := cellsRange k n (m.cells.filter fun c => decide (c.1 < m.len)) }

/-! ### Memory primitives (20_memory.md) -/

/-- `MemWrite(k, 1, v)`: the checks in R62's order, expansion to ExpandLen(k) with zero bytes, then the store. -/
def memWrite (k v : Int) (s : State) : Prim Unit :=
  if k < 0 then .raise .invalidMemoryAccess none s
  else if v < 0 ∨ 255 < v then .raise .invalidMemoryValue none s
  else if s.memory.len < expandLen k.toNat ∧ s.config.memLimit.exceededBy (expandLen k.toNat) then
    .raise .memoryLimitExceeded none s
  else .ok () (s.withMemory ((s.memory.grow (expandLen k.toNat)).set k.toNat (BitVec.ofInt 8 v)))

/-- `load(offset)`: 0 at or beyond MLEN, without expanding (R63). No registered instruction calls it. -/
def load (offset : Int) (s : State) : Prim Byte :=
  if offset < 0 then .raise .invalidMemoryAccess none s else .ok (s.memory.get offset.toNat) s

/-- `active_words()`: MLEN, in bytes (R65). -/
def activeWords (s : State) : Nat := s.memory.len

/-! ### Calldata primitives (R70, R71). No registered instruction calls them. -/

/-- `read_byte(offset)`: 0 at or beyond the buffer's end (R70). -/
def calldataByte (offset : Int) (s : State) : Prim Byte :=
  if offset < 0 then .raise .invalidCalldataAccess none s else .ok (s.calldata.getD offset.toNat 0) s

/-- `n` consecutive `read_byte` results, lowest offset first. -/
def calldataBytes (offset : Int) : Nat → State → Prim (List Byte)
  | 0, s => .ok [] s
  | n + 1, s =>
    (calldataByte offset s).andThen fun b s1 =>
      (calldataBytes (offset + 1) n s1).andThen fun bs s2 => .ok (b :: bs) s2

/-- `read_word(offset)`: 32 consecutive bytes as a big-endian Word (R71). -/
def calldataWord (offset : Int) (s : State) : Prim Word :=
  (calldataBytes offset 32 s).andThen fun bs s1 => .ok (BitVec.ofNat 256 (beValue bs)) s1

end Sys2Proof.Machine
end

