-- ==== Sys2Proof/Machine/Operands.lean ====
section
/-! DEFINITION. The operand forms: what the instructions take from the stack and the code, and in which order. -/

namespace Sys2Proof.Machine

/-- Two pops: the first value is the top. On a stack of one element the first pop is kept and the second raises
StackUnderflow (R130, R136, R230, R241, R261). -/
def popTwo (s : State) : Prim (Word × Word) :=
  (pop s).andThen fun a s1 => (pop s1).andThen fun b s2 => .ok (a, b) s2

/-- The left and right operand of a binary operation, from the first value popped `a` (the top) and the second `b`
(R130). -/
def orderOperands (order : OperandOrder) (a b : Word) : Word × Word :=
  match order with
  | .deepLeft => (b, a)
  | .topLeft => (a, b)

/-- `BinOp(f)`: two pops, the operation on the exact values of its operands, and a push (R130). -/
def binOp (f : Int → Int → Int) (s : State) : Prim Unit :=
  (popTwo s).andThen fun ab s1 =>
    let lr := orderOperands s1.config.operandOrder ab.1 ab.2
    push (f lr.1.toNat lr.2.toNat) s1

/-- The body of PUSHn after its immediate is read: pc advances by n, always, and then the push (R150). -/
def pushBody (n : Fin 32) (imm : Word) (s : State) : Prim Unit :=
  push imm.toNat (s.withPc (s.pc + (n.val + 1 : Nat)))

/-- The body of DUPn: `Peek(n - 1)`, then the push (R183); `n` here is the index n − 1. -/
def dupBody (n : Fin 16) (s : State) : Prim Unit :=
  (peek n.val s).andThen fun v s1 => push v.toNat s1

/-- The body of SWAPn (R200); `n` here is the index n − 1. -/
def swapBody (n : Fin 16) (s : State) : Prim Unit := swap (n.val + 1) s

/-- `JumpTo(t)`: membership in JDS is the only check (R242). -/
def jumpTo (t : Word) (s : State) : Prim Unit :=
  if t.toNat ∈ s.jds then .ok () (s.withPc t.toNat) else .raise .invalidJumpDestination (some t) s

end Sys2Proof.Machine
end

