-- ==== Sys2Proof/Machine/Arithmetic.lean ====
section
/-! DEFINITION. ADD, SUB, MUL and DIV (40_arithmetic.md): exact integer results reduced modulo 2^256 (R135). -/

namespace Sys2Proof.Machine

/-- `(L + R) mod 2^256` (R131). -/
def addWords (l r : Int) : Int := (l + r) % wordModulus

/-- `(L − R) mod 2^256`, never negative (R14, R132). -/
def subWords (l r : Int) : Int := (l - r) % wordModulus

/-- `(L · R) mod 2^256` (R133). -/
def mulWords (l r : Int) : Int := (l * r) % wordModulus

/-- `if R = 0 then 0 else L div R` (R134). -/
def divWords (l r : Int) : Int := if r = 0 then 0 else l / r

/-- ADD (R131). -/
def execAdd (s : State) : Host.Outcome State Fault Refusal := runInstr .add (binOp addWords) s

/-- SUB (R132). -/
def execSub (s : State) : Host.Outcome State Fault Refusal := runInstr .sub (binOp subWords) s

/-- MUL (R133). -/
def execMul (s : State) : Host.Outcome State Fault Refusal := runInstr .mul (binOp mulWords) s

/-- DIV (R134). -/
def execDiv (s : State) : Host.Outcome State Fault Refusal := runInstr .div (binOp divWords) s

end Sys2Proof.Machine
end

