-- ==== Sys2Proof/Machine/Control.lean ====
section
/-! DEFINITION. JUMP, JUMPI, JUMPDEST and PC (43_control.md). -/

namespace Sys2Proof.Machine

/-- JUMP (R240). -/
def execJump (s : State) : Host.Outcome State Fault Refusal :=
  runInstr .jump (fun s0 => (pop s0).andThen fun t s1 => jumpTo t s1) s

/-- The body of JUMPI: both operands are popped, and the target is validated only when the condition is not 0
(R241). -/
def jumpiBody (s : State) : Prim Unit :=
  (popTwo s).andThen fun tc s1 => if tc.2 ≠ 0 then jumpTo tc.1 s1 else .ok () s1

/-- JUMPI (R241). -/
def execJumpi (s : State) : Host.Outcome State Fault Refusal := runInstr .jumpi jumpiBody s

/-- JUMPDEST: nothing; decode has advanced pc (R244). -/
def execJumpdest (s : State) : Host.Outcome State Fault Refusal := runInstr .jumpdest (fun t => .ok () t) s

/-- PC: `Push(opc)`, that is `Push(pc − 1)` (R245). -/
def execPc (s : State) : Host.Outcome State Fault Refusal := runInstr .pc (fun t => push (t.pc - 1) t) s

end Sys2Proof.Machine
end

