-- ==== Sys2Proof/Machine/MemoryOps.lean ====
section
/-! DEFINITION. MSTORE8 and MSIZE (42_memory_ops.md). -/

namespace Sys2Proof.Machine

/-- The body of MSTORE8: pops the offset and the value, and stores the value's low byte (R230). -/
def mstore8Body (s : State) : Prim Unit :=
  (popTwo s).andThen fun offVal s1 => memWrite offVal.1.toNat (offVal.2.toNat % 256 : Nat) s1

/-- MSTORE8 (R230). -/
def execMstore8 (s : State) : Host.Outcome State Fault Refusal := runInstr .mstore8 mstore8Body s

/-- MSIZE: `Push(MLEN)` (R231). -/
def execMsize (s : State) : Host.Outcome State Fault Refusal := runInstr .msize (fun t => push (activeWords t) t) s

end Sys2Proof.Machine
end

