-- ==== Sys2Proof/Machine/StackOps.lean ====
section
/-! DEFINITION. PUSH1..PUSH32, DUP1..DUP16, SWAP1..SWAP16 and POP (41_stack_ops.md), one definition each over the three
templates of R150, R183 and R200. -/

namespace Sys2Proof.Machine

/-- POP: the popped value is discarded (R220). -/
def execPop (s : State) : Host.Outcome State Fault Refusal :=
  runInstr .pop (fun t => (pop t).andThen fun _ t1 => .ok () t1) s

/-- PUSH1 (R151). -/
def execPush1 (imm : Word) (s : State) : Host.Outcome State Fault Refusal := runInstr (.push 0) (pushBody 0 imm) s

/-- PUSH2 (R152). -/
def execPush2 (imm : Word) (s : State) : Host.Outcome State Fault Refusal := runInstr (.push 1) (pushBody 1 imm) s

/-- PUSH3 (R153). -/
def execPush3 (imm : Word) (s : State) : Host.Outcome State Fault Refusal := runInstr (.push 2) (pushBody 2 imm) s

/-- PUSH4 (R154). -/
def execPush4 (imm : Word) (s : State) : Host.Outcome State Fault Refusal := runInstr (.push 3) (pushBody 3 imm) s

/-- PUSH5 (R155). -/
def execPush5 (imm : Word) (s : State) : Host.Outcome State Fault Refusal := runInstr (.push 4) (pushBody 4 imm) s

/-- PUSH6 (R156). -/
def execPush6 (imm : Word) (s : State) : Host.Outcome State Fault Refusal := runInstr (.push 5) (pushBody 5 imm) s

/-- PUSH7 (R157). -/
def execPush7 (imm : Word) (s : State) : Host.Outcome State Fault Refusal := runInstr (.push 6) (pushBody 6 imm) s

/-- PUSH8 (R158). -/
def execPush8 (imm : Word) (s : State) : Host.Outcome State Fault Refusal := runInstr (.push 7) (pushBody 7 imm) s

/-- PUSH9 (R159). -/
def execPush9 (imm : Word) (s : State) : Host.Outcome State Fault Refusal := runInstr (.push 8) (pushBody 8 imm) s

/-- PUSH10 (R160). -/
def execPush10 (imm : Word) (s : State) : Host.Outcome State Fault Refusal := runInstr (.push 9) (pushBody 9 imm) s

/-- PUSH11 (R161). -/
def execPush11 (imm : Word) (s : State) : Host.Outcome State Fault Refusal := runInstr (.push 10) (pushBody 10 imm) s

/-- PUSH12 (R162). -/
def execPush12 (imm : Word) (s : State) : Host.Outcome State Fault Refusal := runInstr (.push 11) (pushBody 11 imm) s

/-- PUSH13 (R163). -/
def execPush13 (imm : Word) (s : State) : Host.Outcome State Fault Refusal := runInstr (.push 12) (pushBody 12 imm) s

/-- PUSH14 (R164). -/
def execPush14 (imm : Word) (s : State) : Host.Outcome State Fault Refusal := runInstr (.push 13) (pushBody 13 imm) s

/-- PUSH15 (R165). -/
def execPush15 (imm : Word) (s : State) : Host.Outcome State Fault Refusal := runInstr (.push 14) (pushBody 14 imm) s

/-- PUSH16 (R166). -/
def execPush16 (imm : Word) (s : State) : Host.Outcome State Fault Refusal := runInstr (.push 15) (pushBody 15 imm) s

/-- PUSH17 (R167). -/
def execPush17 (imm : Word) (s : State) : Host.Outcome State Fault Refusal := runInstr (.push 16) (pushBody 16 imm) s

/-- PUSH18 (R168). -/
def execPush18 (imm : Word) (s : State) : Host.Outcome State Fault Refusal := runInstr (.push 17) (pushBody 17 imm) s

/-- PUSH19 (R169). -/
def execPush19 (imm : Word) (s : State) : Host.Outcome State Fault Refusal := runInstr (.push 18) (pushBody 18 imm) s

/-- PUSH20 (R170). -/
def execPush20 (imm : Word) (s : State) : Host.Outcome State Fault Refusal := runInstr (.push 19) (pushBody 19 imm) s

/-- PUSH21 (R171). -/
def execPush21 (imm : Word) (s : State) : Host.Outcome State Fault Refusal := runInstr (.push 20) (pushBody 20 imm) s

/-- PUSH22 (R172). -/
def execPush22 (imm : Word) (s : State) : Host.Outcome State Fault Refusal := runInstr (.push 21) (pushBody 21 imm) s

/-- PUSH23 (R173). -/
def execPush23 (imm : Word) (s : State) : Host.Outcome State Fault Refusal := runInstr (.push 22) (pushBody 22 imm) s

/-- PUSH24 (R174). -/
def execPush24 (imm : Word) (s : State) : Host.Outcome State Fault Refusal := runInstr (.push 23) (pushBody 23 imm) s

/-- PUSH25 (R175). -/
def execPush25 (imm : Word) (s : State) : Host.Outcome State Fault Refusal := runInstr (.push 24) (pushBody 24 imm) s

/-- PUSH26 (R176). -/
def execPush26 (imm : Word) (s : State) : Host.Outcome State Fault Refusal := runInstr (.push 25) (pushBody 25 imm) s

/-- PUSH27 (R177). -/
def execPush27 (imm : Word) (s : State) : Host.Outcome State Fault Refusal := runInstr (.push 26) (pushBody 26 imm) s

/-- PUSH28 (R178). -/
def execPush28 (imm : Word) (s : State) : Host.Outcome State Fault Refusal := runInstr (.push 27) (pushBody 27 imm) s

/-- PUSH29 (R179). -/
def execPush29 (imm : Word) (s : State) : Host.Outcome State Fault Refusal := runInstr (.push 28) (pushBody 28 imm) s

/-- PUSH30 (R180). -/
def execPush30 (imm : Word) (s : State) : Host.Outcome State Fault Refusal := runInstr (.push 29) (pushBody 29 imm) s

/-- PUSH31 (R181). -/
def execPush31 (imm : Word) (s : State) : Host.Outcome State Fault Refusal := runInstr (.push 30) (pushBody 30 imm) s

/-- PUSH32 (R182). -/
def execPush32 (imm : Word) (s : State) : Host.Outcome State Fault Refusal := runInstr (.push 31) (pushBody 31 imm) s

/-- DUP1 (R184). -/
def execDup1 (s : State) : Host.Outcome State Fault Refusal := runInstr (.dup 0) (dupBody 0) s

/-- DUP2 (R185). -/
def execDup2 (s : State) : Host.Outcome State Fault Refusal := runInstr (.dup 1) (dupBody 1) s

/-- DUP3 (R186). -/
def execDup3 (s : State) : Host.Outcome State Fault Refusal := runInstr (.dup 2) (dupBody 2) s

/-- DUP4 (R187). -/
def execDup4 (s : State) : Host.Outcome State Fault Refusal := runInstr (.dup 3) (dupBody 3) s

/-- DUP5 (R188). -/
def execDup5 (s : State) : Host.Outcome State Fault Refusal := runInstr (.dup 4) (dupBody 4) s

/-- DUP6 (R189). -/
def execDup6 (s : State) : Host.Outcome State Fault Refusal := runInstr (.dup 5) (dupBody 5) s

/-- DUP7 (R190). -/
def execDup7 (s : State) : Host.Outcome State Fault Refusal := runInstr (.dup 6) (dupBody 6) s

/-- DUP8 (R191). -/
def execDup8 (s : State) : Host.Outcome State Fault Refusal := runInstr (.dup 7) (dupBody 7) s

/-- DUP9 (R192). -/
def execDup9 (s : State) : Host.Outcome State Fault Refusal := runInstr (.dup 8) (dupBody 8) s

/-- DUP10 (R193). -/
def execDup10 (s : State) : Host.Outcome State Fault Refusal := runInstr (.dup 9) (dupBody 9) s

/-- DUP11 (R194). -/
def execDup11 (s : State) : Host.Outcome State Fault Refusal := runInstr (.dup 10) (dupBody 10) s

/-- DUP12 (R195). -/
def execDup12 (s : State) : Host.Outcome State Fault Refusal := runInstr (.dup 11) (dupBody 11) s

/-- DUP13 (R196). -/
def execDup13 (s : State) : Host.Outcome State Fault Refusal := runInstr (.dup 12) (dupBody 12) s

/-- DUP14 (R197). -/
def execDup14 (s : State) : Host.Outcome State Fault Refusal := runInstr (.dup 13) (dupBody 13) s

/-- DUP15 (R198). -/
def execDup15 (s : State) : Host.Outcome State Fault Refusal := runInstr (.dup 14) (dupBody 14) s

/-- DUP16 (R199). -/
def execDup16 (s : State) : Host.Outcome State Fault Refusal := runInstr (.dup 15) (dupBody 15) s

/-- SWAP1 (R201). -/
def execSwap1 (s : State) : Host.Outcome State Fault Refusal := runInstr (.swap 0) (swapBody 0) s

/-- SWAP2 (R202). -/
def execSwap2 (s : State) : Host.Outcome State Fault Refusal := runInstr (.swap 1) (swapBody 1) s

/-- SWAP3 (R203). -/
def execSwap3 (s : State) : Host.Outcome State Fault Refusal := runInstr (.swap 2) (swapBody 2) s

/-- SWAP4 (R204). -/
def execSwap4 (s : State) : Host.Outcome State Fault Refusal := runInstr (.swap 3) (swapBody 3) s

/-- SWAP5 (R205). -/
def execSwap5 (s : State) : Host.Outcome State Fault Refusal := runInstr (.swap 4) (swapBody 4) s

/-- SWAP6 (R206). -/
def execSwap6 (s : State) : Host.Outcome State Fault Refusal := runInstr (.swap 5) (swapBody 5) s

/-- SWAP7 (R207). -/
def execSwap7 (s : State) : Host.Outcome State Fault Refusal := runInstr (.swap 6) (swapBody 6) s

/-- SWAP8 (R208). -/
def execSwap8 (s : State) : Host.Outcome State Fault Refusal := runInstr (.swap 7) (swapBody 7) s

/-- SWAP9 (R209). -/
def execSwap9 (s : State) : Host.Outcome State Fault Refusal := runInstr (.swap 8) (swapBody 8) s

/-- SWAP10 (R210). -/
def execSwap10 (s : State) : Host.Outcome State Fault Refusal := runInstr (.swap 9) (swapBody 9) s

/-- SWAP11 (R211). -/
def execSwap11 (s : State) : Host.Outcome State Fault Refusal := runInstr (.swap 10) (swapBody 10) s

/-- SWAP12 (R212). -/
def execSwap12 (s : State) : Host.Outcome State Fault Refusal := runInstr (.swap 11) (swapBody 11) s

/-- SWAP13 (R213). -/
def execSwap13 (s : State) : Host.Outcome State Fault Refusal := runInstr (.swap 12) (swapBody 12) s

/-- SWAP14 (R214). -/
def execSwap14 (s : State) : Host.Outcome State Fault Refusal := runInstr (.swap 13) (swapBody 13) s

/-- SWAP15 (R215). -/
def execSwap15 (s : State) : Host.Outcome State Fault Refusal := runInstr (.swap 14) (swapBody 14) s

/-- SWAP16 (R216). -/
def execSwap16 (s : State) : Host.Outcome State Fault Refusal := runInstr (.swap 15) (swapBody 15) s

end Sys2Proof.Machine
end

