-- ==== Sys2Proof/Machine/Flags.lean ====
section
/-! DEFINITION. The machine's flags: the stopped flag is the only one, and arithmetic writes none (10_state.md R38); the
status register follows it at the end of a step (R44, R110). -/

namespace Sys2Proof.Machine

/-- `stopped <- true` (R38, R260, R261); nothing clears the flag within a run. -/
def setStoppedFlag (s : State) : State := s.withStopped true

/-- The end of a step: "if stopped: status <- Stopped". A raised fault ended the step before this line (R110). -/
def stoppedStatus (s : State) : State :=
  if s.status = .running ∧ s.stopped = true then s.withStatus .stopped else s

end Sys2Proof.Machine
end

