-- ==== Sys2Proof/Machine/Termination.lean ====
section
/-! DEFINITION. STOP and RETURN (44_termination.md). -/

namespace Sys2Proof.Machine

/-- STOP, explicit or implicit: the stopped flag is set and the return-data is empty (R260, R262). -/
def execStop (s : State) : Host.Outcome State Fault Refusal :=
  runInstr .stop (fun t => .ok () ((setStoppedFlag t).withReturnData Memory.empty)) s

/-- The body of RETURN: pops the offset and the length, checks the length, copies, and stops (R261). -/
def returnBody (s : State) : Prim Unit :=
  (popTwo s).andThen fun offLen s1 =>
    if s1.config.retdataLimit.exceededBy offLen.2.toNat then .raise .returnDataLimitExceeded none s1
    else .ok () (setStoppedFlag (s1.withReturnData (s1.memory.range offLen.1.toNat offLen.2.toNat)))

/-- RETURN (R261). -/
def execRet (s : State) : Host.Outcome State Fault Refusal := runInstr .ret returnBody s

end Sys2Proof.Machine
end

