-- ==== Sys2Proof/Machine/Loop.lean ====
section
/-! DEFINITION. The decode-execute loop's one step (30_encoding.md R110, R111), and placing code in the code buffer. -/

namespace Sys2Proof.Machine

/-- What decode finds at pc (R111). -/
inductive Fetched where
  /-- pc is negative. -/
  | negativePc
  /-- pc is at or beyond the end of the code. -/
  | implicitStop
  /-- The byte at pc is unregistered. -/
  | unknown (op : Byte)
  | instr (i : Instr)
deriving DecidableEq, Repr

/-- Decode at pc, over CODE from pc on (R111, R112). -/
def fetch (s : State) : Fetched :=
  if s.pc < 0 then .negativePc
  else
    match decode s.config.registry (s.code.drop s.pc.toNat) with
    | .endOfCode => .implicitStop
    | .unknownOpcode op => .unknown op
    | .instr i => .instr i

/-- `Decode-and-execute()`: an instruction runs with pc advanced past its opcode byte, and the implicit STOP with pc
as it is (R111, R112). -/
def decodeAndExecute (s : State) : Host.Outcome State Fault Refusal :=
  match fetch s with
  | .negativePc => .next (s.takeFault .invalidCodeOffset none s.pc none)
  | .implicitStop => exec .stop s
  | .unknown op => .next ((s.withPc (s.pc + 1)).takeFault .unknownOpcode (some op) s.pc none)
  | .instr i => exec i (s.withPc (s.pc + 1))

/-- A change of the next state, where there is one. -/
def mapNext (f : State → State) : Host.Outcome State Fault Refusal → Host.Outcome State Fault Refusal
  | .next t => .next (f t)
  | .fault r => .fault r
  | .refused r => .refused r

/-- `Step()`: only a Running context takes one; the budget is checked before decode, and used budget suspends with no
other change (R110, R276). -/
def loopStep (s : State) : Host.Outcome State Fault Refusal :=
  match s.status with
  | .running =>
    if s.budget.isZero then .next (s.withStatus .suspended)
    else mapNext stoppedStatus (decodeAndExecute (s.withBudget s.budget.pred))
  | st => .fault (.runEnded st)

/-- `code` with the bytes `bs` placed at offset `p`; offsets between the old end and `p` hold 0. -/
def placeCode (p : Nat) (bs code : List Byte) : List Byte :=
  code.take p ++ List.replicate (p - code.length) 0 ++ bs ++ code.drop (p + bs.length)

/-- A context whose code buffer is replaced, with JDS as the analysis of the new code (R47, R100). -/
def State.withCode (s : State) (code : List Byte) : State :=
  { s with code := code, jds := jumpDests s.config.registry code }

/-- A Running context that may take a step: at reset nothing changes. -/
def State.madeReady (s : State) : State :=
  { s with pc := max s.pc 0, status := .running, stopped := false,
           budget := if s.budget.isZero then .finite 1 else s.budget }

end Sys2Proof.Machine
end

