-- ==== Sys2Proof/Machine/Step.lean ====
section
/-! DEFINITION. One step of the machine, and the state that fetches a given instruction next. -/

namespace Sys2Proof.Machine

/-- One step (R110, R115); see `loopStep`. -/
def step (s : State) : Host.Outcome State Fault Refusal := loopStep s

/-- The instruction of an opcode-table word stored in CODE at pc, so that the next step runs it; JDS is computed anew
from the code (R47). On this hardware it stands for the host's start of a run (notes/assumptions/3.md). -/
def State.withFetchWord (s : State) (nbits w : Nat) : State :=
  s.madeReady.withCode (placeCode s.madeReady.pc.toNat (tableBytes nbits w) s.code)

end Sys2Proof.Machine
end

