-- ==== Sys2Proof/Machine/HostInterface.lean ====
section
/-! DEFINITION. What the host does before and after a run (10_state.md R30, 60_exceptions.md R283, R284): it starts a run,
reads the outcome and may resume a Suspended context. It has no move during a run. -/

namespace Sys2Proof.Machine

/-- The context at the start of a run, in the order of R300. -/
def startContext (config : Config) (code calldata : List Byte) (budget : Bound) : State :=
  { config := config, code := code, pc := 0, stack := [], memory := Memory.empty, calldata := calldata,
    stopped := false, returnData := Memory.empty, jds := jumpDests config.registry code, status := .running,
    fault := none, budget := budget }

/-- Starting a run (R300): CALLDATA is empty when the host gives none (R37); code longer than CODE_MAX is refused;
no run starts under a configuration that fails its checks (R97, R302). -/
def startRun (config : Config) (code : List Byte) (calldata : Option (List Byte)) (budget : Bound) :
    Host.Outcome State Fault Refusal :=
  if config.wf = false then .refused .invalidConfiguration
  else if config.codeMax.exceededBy code.length then .refused .codeTooLong
  else .next (startContext config code (calldata.getD []) budget)

/-- Resuming a Suspended context: a new budget is loaded and status becomes Running (R283). -/
def resume (budget : Bound) (s : State) : Host.Outcome State Fault Refusal :=
  match s.status with
  | .suspended => .next ((s.withBudget budget).withStatus .running)
  | _ => .refused .notSuspended

/-- The outputs of a run (R30, R51, R283): STACK top first, RETURN_DATA and the context's pc and memory when it is
Stopped or Suspended, the fault record alone when it is Faulted. -/
inductive RunOutcome where
  | stopped (stack : List Word) (returnData : Memory) (pc : Int) (memory : Memory)
  | faulted (record : FaultRecord)
  | suspended (stack : List Word) (returnData : Memory) (pc : Int) (memory : Memory)
deriving DecidableEq, Repr

/-- The outcome the host reads; none while the run is in progress (R284). -/
def runOutcome (s : State) : Option RunOutcome :=
  match s.status with
  | .running => none
  | .stopped => some (.stopped s.stack s.returnData s.pc s.memory)
  | .faulted => s.fault.map .faulted
  | .suspended => some (.suspended s.stack s.returnData s.pc s.memory)

end Sys2Proof.Machine
end

