-- ==== Sys2Proof/Safety.lean ====
section
/-! DEFINITION. The terms in which claims speak of runs: a fault raised, an instruction boundary of the code, the frame
of an instruction, and the invariants of a run. No term here reads a context after a fault: only the fault record and
the status are outputs then (60_exceptions.md R278). -/

namespace Sys2Proof.Machine

/-! ### Faults -/

/-- An instruction faults: status becomes Faulted, the record holds the kind, the instruction's opcode byte, its offset
opc (which is pc − 1 on entry, R34) and the target, and the stopped flag is not set (R273, R277). -/
def RaisesFault (i : Instr) (s : State) (kind : FaultKind) (target : Option Word) : Prop :=
  ∃ t, exec i s = .next t ∧ t.status = .faulted ∧ t.stopped = s.stopped ∧
    t.fault = some { kind := kind, opcode := s.config.registry.byteOf i.op, pc := s.pc - 1, target := target }

/-- A step faults, with this opcode byte in the record and the pc at which the step began (R273, R277). -/
def StepRaises (s : State) (kind : FaultKind) (opcode : Option Byte) (target : Option Word) : Prop :=
  ∃ t, step s = .next t ∧ t.status = .faulted ∧ t.stopped = s.stopped ∧
    t.fault = some { kind := kind, opcode := opcode, pc := s.pc, target := target }

/-- The step decodes: the run is in progress and has budget left (R110). -/
def Steps (s : State) : Prop := s.status = .running ∧ s.budget.isZero = false

/-! ### Instruction boundaries of a code buffer (R100, R103) -/

/-- The offsets the linear pass of R100 stops at: 0, and after a boundary the offset past that byte and the operand
bytes it steps over. -/
inductive Boundary (r : Registry) (code : List Byte) : Nat → Prop where
  | zero : Boundary r code 0
  | next (i : Nat) (b : Byte) (h : Boundary r code i) (hb : code[i]? = some b) :
      Boundary r code (i + 1 + r.operandWidth b)

/-! ### Frames -/

/-- Nothing but the stack and pc differs; memory is compared by its length and byte by byte. -/
def SameButStackAndPc (s t : State) : Prop :=
  t.config = s.config ∧ t.code = s.code ∧ t.memory.len = s.memory.len ∧ (∀ k, t.memory.get k = s.memory.get k) ∧
  t.calldata = s.calldata ∧ t.stopped = s.stopped ∧ t.returnData = s.returnData ∧ t.jds = s.jds ∧
  t.status = s.status ∧ t.fault = s.fault ∧ t.budget = s.budget

/-! ### Sequences of primitives -/

/-- Pushes the words of a list, the first one first. -/
def pushAll : List Word → State → Prim Unit
  | [], s => .ok () s
  | w :: ws, s => (push w.toNat s).andThen fun _ s1 => pushAll ws s1

/-- `n` pops, the values in the order they come. -/
def popMany : Nat → State → Prim (List Word)
  | 0, s => .ok [] s
  | n + 1, s => (pop s).andThen fun w s1 => (popMany n s1).andThen fun ws s2 => .ok (w :: ws) s2

/-- Stores the listed bytes in order. -/
def storeAll : List (Nat × Byte) → State → Prim Unit
  | [], s => .ok () s
  | kb :: rest, s => (memWrite kb.1 kb.2.toNat s).andThen fun _ s1 => storeAll rest s1

/-! ### Invariants -/

/-- What holds of a context while its run is in progress and when it is an output. -/
structure ContextInv (s : State) : Prop where
  /-- The configuration is a valid one (R92, R97, R10). -/
  configWf : s.config.wf = true
  /-- The code passed the check at the start of the run (R300). -/
  codeLimit : s.config.codeMax.exceededBy s.code.length = false
  /-- "0 ≤ depth ≤ 1024 at every step" (R35). -/
  depth : s.stack.length ≤ stackLimit
  /-- Memory is in canonical form: every byte listed lies below MLEN (R36). -/
  memoryWf : s.memory.wf = true
  /-- MLEN is always a multiple of 32 (R78), at most MEM_LIMIT (R62), and at most 2^256 (R11). -/
  memoryGranule : memGranule ∣ s.memory.len
  memoryLimit : s.config.memLimit.exceededBy s.memory.len = false
  memoryBound : s.memory.len ≤ wordModulus
  /-- Return-data is "empty until set" (R39), in canonical form, and within RETDATA_LIMIT (R261). -/
  returnUnset : s.stopped = false → s.returnData = Memory.empty
  returnWf : s.returnData.wf = true
  returnLimit : s.config.retdataLimit.exceededBy s.returnData.len = false
  /-- pc is never negative (R113) and never exceeds CODE_LEN + 32 (R11). -/
  pcNonneg : 0 ≤ s.pc
  pcBound : s.pc ≤ s.code.length + 32
  /-- JDS is the analysis of the code (R47). -/
  jdsOfCode : s.jds = jumpDests s.config.registry s.code

/-- The kinds a run can report (R271, R282). -/
def reachableKinds : List FaultKind :=
  [.unknownOpcode, .invalidJumpDestination, .stackUnderflow, .stackOverflow, .invalidStackItem, .memoryLimitExceeded,
   .returnDataLimitExceeded]

/-- What holds of the status, the stopped flag and the fault record (R38, R44, R45, R273). -/
structure OutcomeInv (s : State) : Prop where
  stoppedIff : s.status = .stopped ↔ s.stopped = true
  faultedIff : s.status = .faulted ↔ s.fault.isSome = true
  recordKind : ∀ r, s.fault = some r → r.kind ∈ reachableKinds
  recordOpcode : ∀ r, s.fault = some r → r.opcode.isSome = true
  recordTarget : ∀ r, s.fault = some r → (r.target.isSome = true ↔ r.kind = .invalidJumpDestination)
  recordPc : ∀ r, s.fault = some r → 0 ≤ r.pc

/-- The invariant of a run. A context is spoken of only where it is no discarded one (R278). -/
def RunInv (s : State) : Prop := OutcomeInv s ∧ (s.status ≠ .faulted → ContextInv s)

/-- pc stands on an instruction boundary of the code, so that no operand byte is ever decoded (R103). -/
def PcOnBoundary (s : State) : Prop :=
  s.status ≠ .faulted → 0 ≤ s.pc ∧ Boundary s.config.registry s.code s.pc.toNat

end Sys2Proof.Machine
end

