-- ==== Sys2Proof/Certificates/Slice0/Obligations.lean ====
section
/-! DEFINITION. The statements for the provers. Each docstring names the rules of spec/ that the statement formalises. In
the statements about `exec`, the state is the one decode leaves: pc is opc + 1 (10_state.md R34, 30_encoding.md R111).
No statement speaks of the context after a fault (60_exceptions.md R278). -/

open Sys2Proof Sys2Proof.Machine

/-- R91 (the byte values are the spec's own decision D1; notes/assumptions/1.md): the opcode byte of each registered
instruction, and the slot that byte selects. -/
def Obligations.RegistryHoldsOpcodeTable : Prop :=
  (∀ p ∈ ([(.stop, 0x00), (.add, 0x01), (.mul, 0x02), (.sub, 0x03), (.div, 0x04), (.pop, 0x50), (.mstore8, 0x53),
      (.jump, 0x56), (.jumpi, 0x57), (.pc, 0x58), (.msize, 0x59), (.jumpdest, 0x5B), (.ret, 0xF3)] : List (Op × Byte)),
    Registry.default.byteOf p.1 = some p.2 ∧ Registry.default.slot p.2 = .op p.1) ∧
  (∀ n : Fin 32, Registry.default.byteOf (.push n) = some (BitVec.ofNat 8 (0x60 + n.val)) ∧
    Registry.default.slot (BitVec.ofNat 8 (0x60 + n.val)) = .op (.push n)) ∧
  (∀ n : Fin 16, Registry.default.byteOf (.dup n) = some (BitVec.ofNat 8 (0x80 + n.val)) ∧
    Registry.default.slot (BitVec.ofNat 8 (0x80 + n.val)) = .op (.dup n)) ∧
  (∀ n : Fin 16, Registry.default.byteOf (.swap n) = some (BitVec.ofNat 8 (0x90 + n.val)) ∧
    Registry.default.slot (BitVec.ofNat 8 (0x90 + n.val)) = .op (.swap n))

/-- R96: the 179 bytes that hold Invalid, and the fault of decoding one of them. -/
def Obligations.UnregisteredBytesFault : Prop :=
  (∀ b : Byte, Registry.default.slot b = .invalid ↔
    (0x05 ≤ b ∧ b ≤ 0x4F) ∨ b = 0x51 ∨ b = 0x52 ∨ b = 0x54 ∨ b = 0x55 ∨ b = 0x5A ∨ (0x5C ≤ b ∧ b ≤ 0x5F) ∨
    (0xA0 ≤ b ∧ b ≤ 0xF2) ∨ 0xF4 ≤ b) ∧
  ((List.range 256).filter fun n => decide (Registry.default.slot (BitVec.ofNat 8 n) = .invalid)).length = 179 ∧
  (∀ (s : State) (b : Byte), s.config.registry = Registry.default → Steps s → 0 ≤ s.pc → s.code[s.pc.toNat]? = some b →
    Registry.default.slot b = .invalid → StepRaises s .unknownOpcode (some b) none)

/-- R97: the DuplicateOpcode check of registry construction. -/
def Obligations.DuplicateOpcodeCheck : Prop :=
  (∀ es : List Registration, ¬ ((es.map (·.byte)).Nodup ∧ (es.map (·.name)).Nodup) →
    Registry.build es = .error .duplicateOpcode) ∧
  (∀ es : List Registration, (es.map (·.byte)).Nodup → (es.map (·.name)).Nodup →
    Registry.build es = .ok { entries := es }) ∧
  (opcodeTable.length = 77 ∧ Registry.build opcodeTable = .ok Registry.default) ∧
  (∀ (c : Config) (code : List Byte) (cd : Option (List Byte)) (budget : Bound),
    ¬ ((c.registry.entries.map (·.byte)).Nodup ∧ (c.registry.entries.map (·.name)).Nodup) →
    startRun c code cd budget = .refused .invalidConfiguration)

/-- R90, R91, R99: decode and encode agree for every instruction, every immediate and every valid OPCODE_MAP. -/
def Obligations.DecodeOfEncode : Prop :=
  ∀ (r : Registry) (i : Instr) (rest : List Byte), r.wf = true → i.wellFormed = true →
    decode r (encode r i ++ rest) = .instr i

/-- R91, R152, R182: a few encodings written out, one of each family. -/
def Obligations.WordsOfTheTableDecode : Prop :=
  decode Registry.default [0x01] = .instr .add ∧ decode Registry.default [0x04] = .instr .div ∧
  decode Registry.default [0x50] = .instr .pop ∧ decode Registry.default [0x53] = .instr .mstore8 ∧
  decode Registry.default [0x57] = .instr .jumpi ∧ decode Registry.default [0x5B] = .instr .jumpdest ∧
  decode Registry.default [0x61, 0x01, 0x02] = .instr (.push2 0x0102) ∧
  decode Registry.default [0x82] = .instr .dup3 ∧ decode Registry.default [0x9F] = .instr .swap16 ∧
  decode Registry.default [0xF3] = .instr .ret ∧ decode Registry.default [0xFE] = .unknownOpcode 0xFE ∧
  decode Registry.default [0x7F, 0x01, 0x02, 0x03, 0x04, 0x05, 0x06, 0x07, 0x08, 0x09, 0x0A, 0x0B, 0x0C, 0x0D, 0x0E, 0x0F,
    0x10, 0x11, 0x12, 0x13, 0x14, 0x15, 0x16, 0x17, 0x18, 0x19, 0x1A, 0x1B, 0x1C, 0x1D, 0x1E, 0x1F, 0x20] =
    .instr (.push32 0x0102030405060708090A0B0C0D0E0F101112131415161718191A1B1C1D1E1F20)

/-- R102: a decoder tells the length of an instruction from its first byte alone; the width is the one R100 steps over. -/
def Obligations.FirstByteGivesLength : Prop :=
  ∀ (r : Registry) (b : Byte) (rest : List Byte) (i : Instr), r.wf = true → decode r (b :: rest) = .instr i →
    i.length = 1 + r.operandWidth b ∧ 1 ≤ i.length ∧ i.length ≤ 33 ∧
    (∀ rest' : List Byte, rest'.take (i.length - 1) = rest.take (i.length - 1) → decode r (b :: rest') = .instr i)

/-- R99: the value of `ImmRead(p, n)`, with m the number of immediate bytes present in code. -/
def Obligations.ImmediateIsLeftPadded : Prop :=
  ∀ (code : List Byte) (p n m : Nat), 1 ≤ n → n ≤ 32 → m = min n (code.length - p) →
    (immRead code p n).toNat =
      ((List.range m).map fun i => (code.getD (p + i) 0).toNat * 256 ^ (m - 1 - i)).sum ∧
    (immRead code p n).toNat < 256 ^ m ∧ 256 ^ m ≤ 256 ^ n ∧ 256 ^ n ≤ wordModulus ∧ (m = 0 → immRead code p n = 0)

/-- R100: the pass finds the boundaries that hold JUMPDEST_BYTE, and no other offset. -/
def Obligations.JumpDestsCharacterised : Prop :=
  ∀ (r : Registry) (code : List Byte) (t : Nat),
    t ∈ jumpDests r code ↔ Boundary r code t ∧ ∃ b, code[t]? = some b ∧ r.byteOf .jumpdest = some b

/-- R101 (a), (b) and (c). -/
def Obligations.JumpDestMembers : Prop :=
  (∀ (r : Registry) (code : List Byte) (i : Nat), i ∈ jumpDests r code →
    i < code.length ∧ ∃ b, code[i]? = some b ∧ r.byteOf .jumpdest = some b) ∧
  (∀ (r : Registry) (code : List Byte) (i j : Nat) (b : Byte), Boundary r code i → code[i]? = some b →
    i < j → j ≤ i + r.operandWidth b → j ∉ jumpDests r code) ∧
  (∀ (c : Config) (code cd cd' : List Byte) (budget budget' : Bound),
    (startContext c code cd budget).jds = (startContext c code cd' budget').jds) ∧
  (∀ s t : State, step s = .next t → t.status ≠ .faulted → t.jds = s.jds)

/-- R103: a byte in the operand of a PUSH is never decoded, since pc steps over it and jumps cannot land in it. -/
def Obligations.StepKeepsPcOnBoundary : Prop :=
  (∀ (c : Config) (code cd : List Byte) (budget : Bound), PcOnBoundary (startContext c code cd budget)) ∧
  (∀ s t : State, RunInv s → PcOnBoundary s → step s = .next t → PcOnBoundary t)

/-- R110, R111: budget, decode, pc advance, execute, then "if stopped: status <- Stopped". -/
def Obligations.StepRunsDecodedInstruction : Prop :=
  ∀ (s : State) (i : Instr), Steps s → 0 ≤ s.pc →
    decode s.config.registry (s.code.drop s.pc.toNat) = .instr i →
    step s = mapNext (fun t => if t.status = .running ∧ t.stopped = true then { t with status := .stopped } else t)
      (exec i { s with budget := s.budget.pred, pc := s.pc + 1 })

/-- R111: the four cases of decode and dispatch. -/
def Obligations.StepFollowsTheLoop : Prop :=
  (∀ s : State, Steps s → s.pc < 0 → StepRaises s .invalidCodeOffset none none) ∧
  (∀ s : State, Steps s → (s.code.length : Int) ≤ s.pc →
    step s = mapNext stoppedStatus (exec .stop { s with budget := s.budget.pred })) ∧
  (∀ (s : State) (op : Byte), Steps s → 0 ≤ s.pc → s.code[s.pc.toNat]? = some op →
    s.config.registry.slot op = .invalid → StepRaises s .unknownOpcode (some op) none) ∧
  (∀ (s : State) (op : Byte) (k : Op), Steps s → 0 ≤ s.pc → s.code[s.pc.toNat]? = some op →
    s.config.registry.slot op = .op k →
    step s = mapNext stoppedStatus (exec (k.toInstr (immRead s.code (s.pc.toNat + 1) k.immWidth))
      { s with budget := s.budget.pred, pc := s.pc + 1 }))

/-- R110, R276 (1), R46. That an ended run answers `runEnded` is notes/assumptions/6.md. -/
def Obligations.BudgetCheckedFirst : Prop :=
  (∀ s : State, s.status = .running → s.budget = .finite 0 → step s = .next { s with status := .suspended }) ∧
  (∀ (s t : State) (n : Nat), s.status = .running → s.budget = .finite (n + 1) → step s = .next t →
    t.status ≠ .faulted → t.budget = .finite n) ∧
  (∀ s t : State, s.status = .running → s.budget = .infinite → step s = .next t → t.status ≠ .faulted →
    t.budget = .infinite) ∧
  (∀ s : State, s.status ≠ .running → step s = .fault (.runEnded s.status))

/-- R262: the implicit STOP. -/
def Obligations.ImplicitStopEndsTheRun : Prop :=
  ∀ s : State, Steps s → (s.code.length : Int) ≤ s.pc →
    step s = .next { s with budget := s.budget.pred, stopped := true, returnData := { len := 0, cells := [] },
                            status := .stopped }

/-- R316: "With a finite STEP_BUDGET every run ends within STEP_BUDGET + 1 steps." -/
def Obligations.FiniteBudgetRunEnds : Prop :=
  ∀ (s : State) (n : Nat), s.status = .running → s.budget = .finite n →
    ∃ k t, k ≤ n + 1 ∧ core.run k s = .next t ∧ t.status ≠ .running

/-- R283, R284: resume. The refusal of other states is notes/assumptions/14.md. -/
def Obligations.SuspendedRunResumes : Prop :=
  (∀ (s : State) (b : Bound), s.status = .running → s.budget = .finite 0 →
    ∃ t, step s = .next t ∧ t.status = .suspended ∧ resume b t = .next { s with budget := b }) ∧
  (∀ (s : State) (b : Bound), s.status ≠ .suspended → resume b s = .refused .notSuspended)

/-- R300: the start-of-run sequence. -/
def Obligations.StartOfRunState : Prop :=
  (∀ (c : Config) (code : List Byte) (cd : Option (List Byte)) (budget : Bound), c.wf = true →
    c.codeMax.exceededBy code.length = true → startRun c code cd budget = .refused .codeTooLong) ∧
  (∀ (c : Config) (code : List Byte) (cd : Option (List Byte)) (budget : Bound), c.wf = true →
    c.codeMax.exceededBy code.length = false →
    startRun c code cd budget = .next
      { config := c, code := code, pc := 0, stack := [], memory := { len := 0, cells := [] },
        calldata := cd.getD [], stopped := false, returnData := { len := 0, cells := [] },
        jds := jumpDests c.registry code, status := .running, fault := none, budget := budget }) ∧
  (Registry.build opcodeTable = .ok Registry.default ∧ Config.default.wf = true)

/-- R301, with the inputs that notes/assumptions/2.md and 3.md name (the model's choice). -/
def Obligations.ResetIsAStartOfRun : Prop :=
  startRun Config.default [] none .infinite = .next State.reset

/-- R30, R51, R283: the outputs of a run. -/
def Obligations.RunOutputs : Prop :=
  (∀ s : State, s.status = .running → runOutcome s = none) ∧
  (∀ s : State, s.status = .stopped → runOutcome s = some (.stopped s.stack s.returnData s.pc s.memory)) ∧
  (∀ s : State, s.status = .suspended → runOutcome s = some (.suspended s.stack s.returnData s.pc s.memory)) ∧
  (∀ (s : State) (r : FaultRecord), s.status = .faulted → s.fault = some r → runOutcome s = some (.faulted r))

/-- R40. -/
def Obligations.PushPrimitive : Prop :=
  (∀ (v : Int) (s : State), s.stack.length + 1 > 1024 → push v s = .raise .stackOverflow none s) ∧
  (∀ (v : Int) (s : State), s.stack.length + 1 ≤ 1024 → (v < 0 ∨ v > 2 ^ 256 - 1) →
    push v s = .raise .invalidStackItem none s) ∧
  (∀ (v : Int) (s : State), s.stack.length + 1 ≤ 1024 → 0 ≤ v → v ≤ 2 ^ 256 - 1 →
    ∃ w : Word, (w.toNat : Int) = v ∧ push v s = .ok () { s with stack := w :: s.stack })

/-- R41, R42, R43. -/
def Obligations.PopPeekSwapPrimitives : Prop :=
  (∀ s : State, s.stack = [] → pop s = .raise .stackUnderflow none s) ∧
  (∀ (s : State) (w : Word) (rest : List Word), s.stack = w :: rest → pop s = .ok w { s with stack := rest }) ∧
  (∀ (n : Nat) (s : State), s.stack.length ≤ n → peek n s = .raise .stackUnderflow none s) ∧
  (∀ (n : Nat) (s : State) (h : n < s.stack.length), peek n s = .ok s.stack[n] s) ∧
  (∀ (n : Nat) (s : State), 1 ≤ n → s.stack.length < n + 1 → swap n s = .raise .stackUnderflow none s) ∧
  (∀ (n : Nat) (s : State), 1 ≤ n → n + 1 ≤ s.stack.length →
    ∃ st, swap n s = .ok () { s with stack := st } ∧ st.length = s.stack.length ∧ st[0]? = s.stack[n]? ∧
      st[n]? = s.stack[0]? ∧ ∀ i, i ≠ 0 → i ≠ n → st[i]? = s.stack[i]?)

/-- R221: the stack discipline law. -/
def Obligations.StackDiscipline : Prop :=
  ∀ (ws : List Word) (s : State), s.stack.length + ws.length ≤ 1024 →
    ∃ t, pushAll ws s = .ok () t ∧ popMany ws.length t = .ok ws.reverse s

/-- R61, with its examples. -/
def Obligations.ExpandLenIsNextBoundary : Prop :=
  (∀ k : Nat, 32 ∣ expandLen k ∧ k < expandLen k ∧ (∀ m : Nat, 32 ∣ m → k < m → expandLen k ≤ m)) ∧
  (∀ k q : Nat, 32 * q < k + 1 + 32 → k + 1 ≤ 32 * q → expandLen k = 32 * q) ∧
  expandLen 0 = 32 ∧ expandLen 31 = 32 ∧ expandLen 32 = 64 ∧ expandLen (2 ^ 256 - 1) = 2 ^ 256

/-- R62. The canonical form of memory (an invariant of every run, R36) says that no byte is kept beyond MLEN. -/
def Obligations.MemWriteStoresOneByte : Prop :=
  (∀ (k v : Int) (s : State), k < 0 → memWrite k v s = .raise .invalidMemoryAccess none s) ∧
  (∀ (k v : Int) (s : State), 0 ≤ k → (v < 0 ∨ 255 < v) → memWrite k v s = .raise .invalidMemoryValue none s) ∧
  (∀ (k : Nat) (v : Byte) (s : State), expandLen k > s.memory.len → s.config.memLimit.exceededBy (expandLen k) = true →
    memWrite k v.toNat s = .raise .memoryLimitExceeded none s) ∧
  (∀ (k : Nat) (v : Byte) (s : State), s.memory.wf = true →
    (expandLen k ≤ s.memory.len ∨ s.config.memLimit.exceededBy (expandLen k) = false) →
    ∃ m : Memory, memWrite k v.toNat s = .ok () { s with memory := m } ∧ m.wf = true ∧
      m.len = max s.memory.len (expandLen k) ∧ (k < s.memory.len → 32 ∣ s.memory.len → m.len = s.memory.len) ∧
      m.get k = v ∧ ∀ j, j ≠ k → m.get j = s.memory.get j)

/-- R63, R64. Memory.get is M[k] below MLEN; `MemRead` takes memory as an argument, so it changes none. -/
def Obligations.LoadAndRangeRead : Prop :=
  (∀ (o : Int) (s : State), o < 0 → load o s = .raise .invalidMemoryAccess none s) ∧
  (∀ (k : Nat) (s : State), s.memory.len ≤ k → load k s = .ok 0 s) ∧
  (∀ (k : Nat) (s : State), k < s.memory.len → load k s = .ok (cellsGet k s.memory.cells) s) ∧
  (∀ (m : Memory) (k n : Nat), (m.range k n).len = n ∧
    ∀ i, i < n → (m.range k n).get i = if k + i < m.len then cellsGet (k + i) m.cells else 0) ∧
  (∀ (m : Memory) (k : Nat), m.range k 0 = { len := 0, cells := [] })

/-- R78. -/
def Obligations.MemoryLengthIsTheMaximum : Prop :=
  (∀ s t : State, step s = .next t → t.status ≠ .faulted → s.memory.len ≤ t.memory.len) ∧
  (∀ s t : State, step s = .next t → t.status ≠ .faulted → 32 ∣ s.memory.len → 32 ∣ t.memory.len) ∧
  (∀ (c : Config) (code cd : List Byte) (budget : Bound), (startContext c code cd budget).memory.len = 0) ∧
  (∀ (stores : List (Nat × Byte)) (s : State), s.config.memLimit = .infinite → s.memory.len = 0 →
    ∃ t, storeAll stores s = .ok () t ∧ t.memory.len = (stores.map fun kb => expandLen kb.1).foldl max 0)

/-- R70, R71. -/
def Obligations.CalldataReads : Prop :=
  (∀ (o : Int) (s : State), o < 0 → calldataByte o s = .raise .invalidCalldataAccess none s) ∧
  (∀ (k : Nat) (s : State), s.calldata.length ≤ k → calldataByte k s = .ok 0 s) ∧
  (∀ (k : Nat) (s : State) (h : k < s.calldata.length), calldataByte k s = .ok s.calldata[k] s) ∧
  (∀ (k : Nat) (s : State), ∃ w : Word, calldataWord k s = .ok w s ∧
    w.toNat = ((List.range 32).map fun i => (s.calldata.getD (k + i) 0).toNat * 256 ^ (31 - i)).sum) ∧
  (∀ s t : State, step s = .next t → t.status ≠ .faulted → t.calldata = s.calldata)

/-- R131, with the template of R130 and, for a non-commutative operation, either OPERAND_ORDER. -/
def Obligations.AddResult : Prop :=
  encode Registry.default .add = [0x01] ∧
  (∀ (s : State) (a b : Word) (rest : List Word), s.stack = a :: b :: rest → s.stack.length ≤ 1024 →
    exec .add s = .next { s with stack := BitVec.ofNat 256 ((b.toNat + a.toNat) % 2 ^ 256) :: rest }) ∧
  (∀ s : State, s.stack.length < 2 → RaisesFault .add s .stackUnderflow none)

/-- R132, with the template of R130 and, for a non-commutative operation, either OPERAND_ORDER. -/
def Obligations.SubResult : Prop :=
  encode Registry.default .sub = [0x03] ∧
  (∀ (s : State) (a b : Word) (rest : List Word), s.stack = a :: b :: rest → s.stack.length ≤ 1024 →
    exec .sub s = .next { s with stack := (match s.config.operandOrder with
      | .deepLeft => BitVec.ofNat 256 ((2 ^ 256 + b.toNat - a.toNat) % 2 ^ 256)
      | .topLeft => BitVec.ofNat 256 ((2 ^ 256 + a.toNat - b.toNat) % 2 ^ 256)) :: rest }) ∧
  (∀ s : State, s.stack.length < 2 → RaisesFault .sub s .stackUnderflow none)

/-- R133, with the template of R130 and, for a non-commutative operation, either OPERAND_ORDER. -/
def Obligations.MulResult : Prop :=
  encode Registry.default .mul = [0x02] ∧
  (∀ (s : State) (a b : Word) (rest : List Word), s.stack = a :: b :: rest → s.stack.length ≤ 1024 →
    exec .mul s = .next { s with stack := BitVec.ofNat 256 ((b.toNat * a.toNat) % 2 ^ 256) :: rest }) ∧
  (∀ s : State, s.stack.length < 2 → RaisesFault .mul s .stackUnderflow none)

/-- R134, with the template of R130 and, for a non-commutative operation, either OPERAND_ORDER. -/
def Obligations.DivResult : Prop :=
  encode Registry.default .div = [0x04] ∧
  (∀ (s : State) (a b : Word) (rest : List Word), s.stack = a :: b :: rest → s.stack.length ≤ 1024 →
    exec .div s = .next { s with stack := (match s.config.operandOrder with
      | .deepLeft => if a = 0 then 0 else BitVec.ofNat 256 (b.toNat / a.toNat)
      | .topLeft => if b = 0 then 0 else BitVec.ofNat 256 (a.toNat / b.toNat)) :: rest }) ∧
  (∀ s : State, s.stack.length < 2 → RaisesFault .div s .stackUnderflow none)

/-- R150 to R182, for all 32 forms: `pushInstr n` is PUSH(n+1). -/
def Obligations.PushResult : Prop :=
  ∀ (n : Fin 32) (imm : Word) (s : State),
    (s.stack.length < 1024 →
      exec (pushInstr n imm) s = .next { s with pc := s.pc + (n.val + 1 : Nat), stack := imm :: s.stack }) ∧
    (1024 ≤ s.stack.length → RaisesFault (pushInstr n imm) s .stackOverflow none)

/-- R150, with R99 for the value; n here is the width 1 to 32. The stopped flag of a running context is false (R44). -/
def Obligations.PushStep : Prop :=
  ∀ (s : State) (op : Byte) (n : Fin 32), s.config.registry.wf = true → Steps s → s.stopped = false → 0 ≤ s.pc →
    s.code[s.pc.toNat]? = some op → s.config.registry.slot op = .op (.push n) →
    (s.stack.length < 1024 →
      step s = .next { s with
        budget := s.budget.pred
        pc := s.pc + 1 + (n.val + 1 : Nat)
        stack := BitVec.ofNat 256 (beValue ((s.code.drop (s.pc.toNat + 1)).take (n.val + 1))) :: s.stack }) ∧
    (1024 ≤ s.stack.length → StepRaises s .stackOverflow (some op) none)

/-- R183, for all 16 forms: `dupInstr n` is DUP(n+1). -/
def Obligations.DupResult : Prop :=
  ∀ (n : Fin 16) (s : State),
    (∀ h : n.val < s.stack.length, s.stack.length < 1024 →
      exec (dupInstr n) s = .next { s with stack := s.stack[n.val] :: s.stack }) ∧
    (s.stack.length < n.val + 1 → RaisesFault (dupInstr n) s .stackUnderflow none ∧
      dupBody n s = .raise .stackUnderflow none s) ∧
    (s.stack.length = 1024 → RaisesFault (dupInstr n) s .stackOverflow none ∧ dupBody n s = .raise .stackOverflow none s)

/-- R200, for all 16 forms: `swapInstr n` is SWAP(n+1), which exchanges S[0] and S[n+1]. -/
def Obligations.SwapResult : Prop :=
  ∀ (n : Fin 16) (s : State),
    (n.val + 2 ≤ s.stack.length → ∃ st, exec (swapInstr n) s = .next { s with stack := st } ∧
      st.length = s.stack.length ∧ st[0]? = s.stack[n.val + 1]? ∧ st[n.val + 1]? = s.stack[0]? ∧
      (∀ i, i ≠ 0 → i ≠ n.val + 1 → st[i]? = s.stack[i]?) ∧
      exec (swapInstr n) { s with stack := st } = .next s) ∧
    (s.stack.length < n.val + 2 → RaisesFault (swapInstr n) s .stackUnderflow none ∧
      swapBody n s = .raise .stackUnderflow none s)

/-- R220; the last clause is its "stack unchanged", said of the primitive that raises (R41). -/
def Obligations.PopResult : Prop :=
  encode Registry.default .pop = [0x50] ∧
  (∀ (s : State) (w : Word) (rest : List Word), s.stack = w :: rest → exec .pop s = .next { s with stack := rest }) ∧
  (∀ s : State, s.stack = [] → RaisesFault .pop s .stackUnderflow none ∧ pop s = .raise .stackUnderflow none s)

/-- R230. Memory is in canonical form (an invariant of every run). -/
def Obligations.Mstore8Result : Prop :=
  encode Registry.default .mstore8 = [0x53] ∧
  (∀ (s : State) (off val : Word) (rest : List Word), s.stack = off :: val :: rest → s.memory.wf = true →
    (expandLen off.toNat ≤ s.memory.len ∨ s.config.memLimit.exceededBy (expandLen off.toNat) = false) →
    ∃ m : Memory, exec .mstore8 s = .next { s with stack := rest, memory := m } ∧
      m.len = max s.memory.len (expandLen off.toNat) ∧ m.get off.toNat = BitVec.ofNat 8 (val.toNat % 256) ∧
      ∀ j, j ≠ off.toNat → m.get j = s.memory.get j) ∧
  (∀ s : State, s.stack.length < 2 → RaisesFault .mstore8 s .stackUnderflow none) ∧
  (∀ (s : State) (off val : Word) (rest : List Word), s.stack = off :: val :: rest →
    s.memory.len < expandLen off.toNat → s.config.memLimit.exceededBy (expandLen off.toNat) = true →
    RaisesFault .mstore8 s .memoryLimitExceeded none ∧
      memWrite off.toNat (val.toNat % 256 : Nat) s = .raise .memoryLimitExceeded none s) ∧
  (∀ s : State, s.stack = [] → pop s = .raise .stackUnderflow none s)

/-- R231. -/
def Obligations.MsizeResult : Prop :=
  encode Registry.default .msize = [0x59] ∧
  (∀ s : State, s.stack.length < 1024 → s.memory.len < 2 ^ 256 →
    exec .msize s = .next { s with stack := BitVec.ofNat 256 s.memory.len :: s.stack }) ∧
  (∀ s : State, s.stack.length = 1024 → RaisesFault .msize s .stackOverflow none) ∧
  (∀ s : State, s.stack.length < 1024 → s.memory.len = 2 ^ 256 → RaisesFault .msize s .invalidStackItem none) ∧
  (∀ off : Word, expandLen off.toNat = 2 ^ 256 ↔ 2 ^ 256 - 32 ≤ off.toNat)

/-- R240, with the validator of R242. -/
def Obligations.JumpResult : Prop :=
  encode Registry.default .jump = [0x56] ∧
  (∀ (s : State) (t : Word) (rest : List Word), s.stack = t :: rest → t.toNat ∈ s.jds →
    exec .jump s = .next { s with stack := rest, pc := t.toNat }) ∧
  (∀ (s : State) (t : Word) (rest : List Word), s.stack = t :: rest → t.toNat ∉ s.jds →
    RaisesFault .jump s .invalidJumpDestination (some t)) ∧
  (∀ s : State, s.stack = [] → RaisesFault .jump s .stackUnderflow none ∧ pop s = .raise .stackUnderflow none s)

/-- R241 (its c = 0 case is the spec's decision D14; notes/assumptions/9.md). -/
def Obligations.JumpiResult : Prop :=
  encode Registry.default .jumpi = [0x57] ∧
  (∀ (s : State) (t : Word) (rest : List Word), s.stack = t :: 0 :: rest →
    exec .jumpi s = .next { s with stack := rest }) ∧
  (∀ (s : State) (t c : Word) (rest : List Word), s.stack = t :: c :: rest → c ≠ 0 → t.toNat ∈ s.jds →
    exec .jumpi s = .next { s with stack := rest, pc := t.toNat }) ∧
  (∀ (s : State) (t c : Word) (rest : List Word), s.stack = t :: c :: rest → c ≠ 0 → t.toNat ∉ s.jds →
    RaisesFault .jumpi s .invalidJumpDestination (some t)) ∧
  (∀ s : State, s.stack.length < 2 → RaisesFault .jumpi s .stackUnderflow none)

/-- R244. -/
def Obligations.JumpdestResult : Prop :=
  encode Registry.default .jumpdest = [0x5B] ∧ (∀ b : Byte, Registry.default.isJumpdest b = true ↔ b = 0x5B) ∧
  ∀ s : State, exec .jumpdest s = .next s

/-- R245: on entry pc is opc + 1. Every offset of a run is a Word (opc < CODE_LEN): the bound on opc says so of a state. -/
def Obligations.PcResult : Prop :=
  encode Registry.default .pc = [0x58] ∧
  (∀ (s : State) (opc : Nat), s.pc = opc + 1 → opc < 2 ^ 256 → s.stack.length < 1024 →
    exec .pc s = .next { s with stack := BitVec.ofNat 256 opc :: s.stack }) ∧
  (∀ s : State, s.stack.length = 1024 → RaisesFault .pc s .stackOverflow none)

/-- R260. -/
def Obligations.StopResult : Prop :=
  encode Registry.default .stop = [0x00] ∧
  (∀ s : State, exec .stop s = .next { s with stopped := true, returnData := { len := 0, cells := [] } }) ∧
  (∀ (s : State) (op : Byte), Steps s → 0 ≤ s.pc → s.code[s.pc.toNat]? = some op → s.config.registry.slot op = .op .stop →
    step s = .next { s with budget := s.budget.pred, pc := s.pc + 1, stopped := true,
                            returnData := { len := 0, cells := [] }, status := .stopped }) ∧
  (∀ s t : State, s.status = .stopped → step s ≠ .next t)

/-- R261. -/
def Obligations.ReturnResult : Prop :=
  encode Registry.default .ret = [0xF3] ∧
  (∀ (s : State) (off len : Word) (rest : List Word), s.stack = off :: len :: rest →
    s.config.retdataLimit.exceededBy len.toNat = false →
    ∃ rd : Memory, exec .ret s = .next { s with stack := rest, returnData := rd, stopped := true } ∧
      rd.len = len.toNat ∧ ∀ i, i < len.toNat → rd.get i = s.memory.get (off.toNat + i)) ∧
  (∀ (m : Memory) (k : Nat), m.len ≤ k → m.get k = 0) ∧
  (∀ (s : State) (off len : Word) (rest : List Word), s.stack = off :: len :: rest →
    s.config.retdataLimit.exceededBy len.toNat = true → RaisesFault .ret s .returnDataLimitExceeded none) ∧
  (∀ s : State, s.stack.length < 2 → RaisesFault .ret s .stackUnderflow none)

/-- R50: the rows of ADD .. DIV, PUSHn, DUPn, SWAPn, POP, MSIZE, JUMP, JUMPI, JUMPDEST and PC. -/
def Obligations.FrameOfStackAndControl : Prop :=
  ∀ (i : Instr) (s t : State), i ≠ .stop → i ≠ .ret → i ≠ .mstore8 → exec i s = .next t → t.status ≠ .faulted →
    SameButStackAndPc s t ∧ (i ≠ .jump → i ≠ .jumpi → i.op.immWidth = 0 → t.pc = s.pc)

/-- R50, R230: the frame of MSTORE8; the address stored to is the value that its first pop takes. -/
def Obligations.FrameOfMstore8 : Prop :=
  ∀ s t : State, s.memory.wf = true → exec .mstore8 s = .next t → t.status ≠ .faulted →
    (∀ (off : Word) (s1 : State), pop s = .ok off s1 → ∀ k, k ≠ off.toNat → t.memory.get k = s.memory.get k) ∧
    t.stack = s.stack.drop 2 ∧ t.pc = s.pc ∧ t.config = s.config ∧ t.code = s.code ∧ t.calldata = s.calldata ∧
    t.stopped = s.stopped ∧ t.returnData = s.returnData ∧ t.jds = s.jds ∧ t.status = s.status ∧ t.fault = s.fault ∧
    t.budget = s.budget

/-- R50: the rows of STOP and RETURN. -/
def Obligations.FrameOfTermination : Prop :=
  ∀ (i : Instr) (s t : State), i = .stop ∨ i = .ret → exec i s = .next t → t.status ≠ .faulted →
    t.memory.len = s.memory.len ∧ (∀ k, t.memory.get k = s.memory.get k) ∧ t.pc = s.pc ∧ t.config = s.config ∧
    t.code = s.code ∧ t.calldata = s.calldata ∧ t.jds = s.jds ∧ t.status = s.status ∧ t.fault = s.fault ∧
    t.budget = s.budget ∧ (i = .stop → t.stack = s.stack) ∧ (i = .ret → t.stack = s.stack.drop 2)

/-- R11, R35, R36, R38, R39, R44, R47, R78, R113, R271, R273: the invariant of a run is kept. -/
def Obligations.StepKeepsRunInvariant : Prop := ∀ s t : State, RunInv s → step s = .next t → RunInv t

/-- R301; the host's inputs at reset are notes/assumptions/2.md and 3.md (the model's choice). -/
def Obligations.ResetMeetsRunInvariant : Prop := RunInv State.reset

/-- R300, R283. -/
def Obligations.StartAndResumeMeetRunInvariant : Prop :=
  (∀ (c : Config) (code : List Byte) (cd : Option (List Byte)) (budget : Bound) (s : State),
    startRun c code cd budget = .next s → RunInv s) ∧
  (∀ (s t : State) (budget : Bound), RunInv s → resume budget s = .next t → RunInv t)

/-- R38, R263. -/
def Obligations.StoppedFlagIsMonotonic : Prop :=
  (∀ s t : State, step s = .next t → s.stopped = true → t.stopped = true) ∧
  (∀ s t : State, step s = .next t → s.stopped = false → t.stopped = true → t.status = .stopped ∧
    ((s.code.length : Int) ≤ s.pc ∨
      ∃ op, s.code[s.pc.toNat]? = some op ∧
        (s.config.registry.slot op = .op .stop ∨ s.config.registry.slot op = .op .ret)))

/-- R32, R37, R47, R48, R76. -/
def Obligations.ReadOnlyStateIsConstant : Prop :=
  ∀ s t : State, step s = .next t → t.status ≠ .faulted →
    t.code = s.code ∧ t.calldata = s.calldata ∧ t.jds = s.jds ∧ t.config = s.config

/-- R273. -/
def Obligations.FaultRecordOfAStep : Prop :=
  ∀ s t : State, s.config.registry.wf = true → s.status = .running → step s = .next t → t.status = .faulted →
    ∃ r : FaultRecord, t.fault = some r ∧ t.faultKindField = r.kind.code ∧ r.pc = s.pc ∧
      (r.kind = .invalidCodeOffset ↔ s.pc < 0) ∧ (r.kind = .invalidCodeOffset → r.opcode = none) ∧
      (r.kind ≠ .invalidCodeOffset → ∃ op, s.code[s.pc.toNat]? = some op ∧ r.opcode = some op) ∧
      (r.kind = .invalidJumpDestination → ∃ w, s.stack.head? = some w ∧ r.target = some w) ∧
      (r.kind ≠ .invalidJumpDestination → r.target = none)

/-- R44, R283: one outcome and no other. -/
def Obligations.StatusFollowsTheOutcome : Prop :=
  ∀ s : State, s.status = .running → s.stopped = false → s.fault = none →
    ∃ t, step s = .next t ∧ (t.status = .suspended ↔ s.budget.isZero = true) ∧
      (t.status = .stopped ↔ t.stopped = true) ∧ (t.status = .faulted ↔ t.fault.isSome = true)

/-- R37: "an input that no program can observe". -/
def Obligations.CalldataIsUnobservable : Prop :=
  ∀ (s t : State) (cd : List Byte), step s = .next t →
    ∃ t', step { s with calldata := cd } = .next t' ∧ t'.status = t.status ∧ t'.stopped = t.stopped ∧
      t'.fault = t.fault ∧ (t.status ≠ .faulted → t' = { t with calldata := cd })

/-- R243. -/
def Obligations.OnlyJumpsTransferControl : Prop :=
  ∀ (s t : State) (i : Instr), s.config.registry.wf = true → Steps s → 0 ≤ s.pc →
    decode s.config.registry (s.code.drop s.pc.toNat) = .instr i → step s = .next t → t.status ≠ .faulted →
    (t.pc = s.pc + i.length ∧ i ≠ .jump) ∨
    ((i = .jump ∨ i = .jumpi) ∧ ∃ w, s.stack.head? = some w ∧ w.toNat ∈ s.jds ∧ t.pc = w.toNat)

/-- R271, R44 (the numbers are the spec's decisions D11 and D12). -/
def Obligations.KindAndStatusCodes : Prop :=
  ([.unknownOpcode, .invalidCodeOffset, .invalidJumpDestination, .stackUnderflow, .stackOverflow, .invalidStackItem,
    .invalidMemoryAccess, .invalidMemoryValue, .invalidCalldataAccess, .memoryLimitExceeded, .returnDataLimitExceeded,
    .duplicateOpcode] : List FaultKind).map FaultKind.code = [1, 2, 3, 4, 5, 6, 7, 8, 9, 10, 11, 15] ∧
  (∀ k k' : FaultKind, k.code = k'.code → k = k') ∧
  (∀ s : State, s.faultKindField = 0 ↔ s.fault = none) ∧
  [Status.running, .stopped, .faulted, .suspended].map Status.code = [0, 1, 2, 3]
end

