-- ==== Sys2Proof/Laws/Decode.lean ====
section
/-! SUPPORT. Byte order, the registry read both ways, and what decoding and encoding do (30_encoding.md). -/

namespace Sys2Proof

/-! ### Byte order -/

theorem beValue_lt (bs : List Byte) : beValue bs < 256 ^ bs.length := by
  induction bs with
  | nil => simp [beValue]
  | cons b bs ih =>
    have hb := b.isLt
    simp only [beValue, List.length_cons, Nat.pow_succ]
    have : b.toNat * 256 ^ bs.length ≤ 255 * 256 ^ bs.length := Nat.mul_le_mul_right _ (by omega)
    omega

@[simp] theorem beBytes_length (n v : Nat) : (beBytes n v).length = n := by
  induction n with
  | zero => rfl
  | succ n ih => simp [beBytes, ih]

theorem beValue_beBytes (n v : Nat) : beValue (beBytes n v) = v % 256 ^ n := by
  induction n with
  | zero => simp [beBytes, beValue, Nat.mod_one]
  | succ n ih =>
    simp only [beBytes, beValue, beBytes_length, ih, BitVec.toNat_ofNat]
    rw [show (2 : Nat) ^ 8 = 256 from rfl, Nat.pow_succ, Nat.mod_mul]
    rw [Nat.mul_comm, Nat.add_comm]

/-! ### The registry -/

theorem find_of_nodup {α β : Type} [DecidableEq β] (f : α → β) {xs : List α} {x : α} (h : (xs.map f).Nodup)
    (hx : x ∈ xs) : xs.find? (fun y => f y == f x) = some x := by
  induction xs with
  | nil => cases hx
  | cons y ys ih =>
    simp only [List.map_cons, List.nodup_cons] at h
    rcases List.mem_cons.1 hx with rfl | hx
    · simp
    · have hne : f y ≠ f x := fun he => h.1 (he ▸ List.mem_map_of_mem hx)
      simp only [List.find?_cons, beq_eq_false_iff_ne.2 hne]
      exact ih h.2 hx

theorem Registry.wf_iff {r : Registry} : r.wf = true ↔
    (r.entries.map (·.byte)).Nodup ∧ (r.entries.map (·.name)).Nodup ∧ (∀ e ∈ r.entries, e.name = e.effect) ∧
    (∀ o ∈ Op.all, (r.byteOf o).isSome = true) ∧ r.pushConsecutive = true := by
  simp [Registry.wf, and_assoc]

theorem Op.mem_all (o : Op) : o ∈ Op.all := by
  cases o with
  | push n =>
    have : ∀ n : Fin 32, Op.push n ∈ Op.all := by decide
    exact this n
  | dup n =>
    have : ∀ n : Fin 16, Op.dup n ∈ Op.all := by decide
    exact this n
  | swap n =>
    have : ∀ n : Fin 16, Op.swap n ∈ Op.all := by decide
    exact this n
  | _ => decide

theorem Registry.byteOf_mem {r : Registry} {o : Op} {b : Byte} (h : r.byteOf o = some b) :
    ∃ e ∈ r.entries, e.byte = b ∧ e.effect = o := by
  simp only [Registry.byteOf, Option.map_eq_some_iff] at h
  obtain ⟨e, he, rfl⟩ := h
  exact ⟨e, List.mem_of_find?_eq_some he, rfl, by simpa using List.find?_some he⟩

theorem Registry.slot_mem {r : Registry} {o : Op} {b : Byte} (h : r.slot b = .op o) :
    ∃ e ∈ r.entries, e.byte = b ∧ e.effect = o := by
  simp only [Registry.slot] at h
  split at h
  · next e he =>
    injection h with h
    exact ⟨e, List.mem_of_find?_eq_some he, by simpa using List.find?_some he, h⟩
  · cases h

/-- In a registry without a repeated byte, an entry's byte selects its effect. -/
theorem Registry.slot_of_mem {r : Registry} (hw : r.wf = true) {e : Registration} (he : e ∈ r.entries) :
    r.slot e.byte = .op e.effect := by
  have := find_of_nodup (·.byte) (Registry.wf_iff.1 hw).1 he
  simp only [Registry.slot, this]

/-- In a valid registry an entry's effect has that entry's byte. -/
theorem Registry.byteOf_of_mem {r : Registry} (hw : r.wf = true) {e : Registration} (he : e ∈ r.entries) :
    r.byteOf e.effect = some e.byte := by
  obtain ⟨_, hn, hne, _, _⟩ := Registry.wf_iff.1 hw
  have hmap : r.entries.map (·.effect) = r.entries.map (·.name) :=
    List.map_congr_left fun x hx => (hne x hx).symm
  have := find_of_nodup (·.effect) (hmap ▸ hn) he
  simp only [Registry.byteOf, this, Option.map_some]

/-- A valid registry reads the same both ways (R48, R91). -/
theorem Registry.slot_eq_op_iff {r : Registry} (hw : r.wf = true) {b : Byte} {o : Op} :
    r.slot b = .op o ↔ r.byteOf o = some b := by
  constructor
  · intro h
    obtain ⟨e, he, rfl, rfl⟩ := Registry.slot_mem h
    exact Registry.byteOf_of_mem hw he
  · intro h
    obtain ⟨e, he, rfl, rfl⟩ := Registry.byteOf_mem h
    exact Registry.slot_of_mem hw he

theorem Registry.byteOf_isSome {r : Registry} (hw : r.wf = true) (o : Op) : ∃ b, r.byteOf o = some b :=
  Option.isSome_iff_exists.1 ((Registry.wf_iff.1 hw).2.2.2.1 o o.mem_all)

/-- PUSH(n+1) is n bytes after PUSH1 (R92). -/
theorem Registry.push_byte {r : Registry} (hw : r.wf = true) (n : Fin 32) {b p1 : Byte}
    (hb : r.byteOf (.push n) = some b) (h1 : r.byteOf (.push 0) = some p1) : b.toNat = p1.toNat + n.val := by
  have hc := (Registry.wf_iff.1 hw).2.2.2.2
  have hmem : n ∈ pushIndices := by
    have : ∀ n : Fin 32, n ∈ pushIndices := by decide
    exact this n
  have := List.all_eq_true.1 hc n hmem
  simp only [hb, h1, Option.map_some, beq_iff_eq, Option.some.injEq] at this
  exact this

/-- The operand bytes that the analysis steps over are those that the decoder reads (R92, R100, R102). -/
theorem Registry.operandWidth_of_slot {r : Registry} (hw : r.wf = true) {b : Byte} {o : Op} (h : r.slot b = .op o) :
    r.operandWidth b = o.immWidth := by
  obtain ⟨p1, h1⟩ := Registry.byteOf_isSome hw (.push 0)
  obtain ⟨p32, h32⟩ := Registry.byteOf_isSome hw (.push 31)
  have hp32 : p32.toNat = p1.toNat + 31 := Registry.push_byte hw 31 h32 h1
  simp only [Registry.operandWidth, h1, h32]
  by_cases hin : p1.toNat ≤ b.toNat ∧ b.toNat ≤ p32.toNat
  · rw [if_pos hin]
    let n : Fin 32 := ⟨b.toNat - p1.toNat, by omega⟩
    obtain ⟨bn, hbn⟩ := Registry.byteOf_isSome hw (.push n)
    have hbn' : bn.toNat = p1.toNat + (b.toNat - p1.toNat) := Registry.push_byte hw n hbn h1
    have hbb : bn = b := BitVec.eq_of_toNat_eq (by omega)
    have hslot := (Registry.slot_eq_op_iff hw).2 hbn
    rw [hbb, h] at hslot
    injection hslot with hslot
    subst hslot
    rfl
  · rw [if_neg hin]
    cases o with
    | push n =>
      have hb := Registry.push_byte hw n ((Registry.slot_eq_op_iff hw).1 h) h1
      omega
    | _ => rfl

/-! ### Immediates and instructions -/

/-- An immediate of at most 32 bytes loses nothing as a Word (R99). -/
theorem immRead_toNat (code : List Byte) (p n : Nat) (hn : n ≤ 32) :
    (immRead code p n).toNat = beValue ((code.drop p).take n) := by
  have h := beValue_lt ((code.drop p).take n)
  have hle : 256 ^ ((code.drop p).take n).length ≤ 256 ^ 32 :=
    Nat.pow_le_pow_right (by decide) (by simp; omega)
  simp only [immRead, BitVec.toNat_ofNat]
  exact Nat.mod_eq_of_lt (Nat.lt_of_lt_of_le h hle)

theorem Op.immWidth_le (o : Op) : o.immWidth ≤ 32 := by
  cases o with
  | push n => have := n.isLt; simp only [Op.immWidth]; omega
  | _ => simp [Op.immWidth]

/-- A well-formed instruction's immediate fits its immediate bytes. -/
theorem Instr.imm_lt {i : Instr} (h : i.wellFormed = true) : i.imm.toNat < 256 ^ i.op.immWidth := by
  cases i <;> exact of_decide_eq_true h

theorem decode_cons (r : Registry) (b : Byte) (rest : List Byte) :
    decode r (b :: rest) =
      match r.slot b with
      | .op o => .instr (o.toInstr (immRead rest 0 o.immWidth))
      | .invalid => .unknownOpcode b := rfl

/-- What decoding finds from offset `p` of a code buffer on: nothing at or beyond its end, else by the byte there. -/
theorem decode_drop (r : Registry) (code : List Byte) (p : Nat) :
    (code.length ≤ p ∧ decode r (code.drop p) = .endOfCode) ∨
    (∃ b, code[p]? = some b ∧ r.slot b = .invalid ∧ decode r (code.drop p) = .unknownOpcode b) ∨
    (∃ b o, code[p]? = some b ∧ r.slot b = .op o ∧
      decode r (code.drop p) = .instr (o.toInstr (immRead code (p + 1) o.immWidth))) := by
  by_cases hp : code.length ≤ p
  · exact .inl ⟨hp, by rw [List.drop_eq_nil_of_le hp]; rfl⟩
  · have hlt : p < code.length := by omega
    rw [List.drop_eq_getElem_cons hlt, decode_cons]
    cases hs : r.slot code[p] with
    | invalid => exact .inr (.inl ⟨_, List.getElem?_eq_getElem hlt, hs, rfl⟩)
    | op o => exact .inr (.inr ⟨_, o, List.getElem?_eq_getElem hlt, hs, by simp [immRead]⟩)

end Sys2Proof
end

