-- ==== Sys2Proof/Laws/State.lean ====
section
/-! SUPPORT. What each named update of State leaves in each field: one lemma per field per update. -/

namespace Sys2Proof.Machine

@[simp] theorem State.withPc_config (s : State) (v : Int) : (s.withPc v).config = s.config := rfl
@[simp] theorem State.withPc_code (s : State) (v : Int) : (s.withPc v).code = s.code := rfl
@[simp] theorem State.withPc_pc (s : State) (v : Int) : (s.withPc v).pc = v := rfl
@[simp] theorem State.withPc_stack (s : State) (v : Int) : (s.withPc v).stack = s.stack := rfl
@[simp] theorem State.withPc_memory (s : State) (v : Int) : (s.withPc v).memory = s.memory := rfl
@[simp] theorem State.withPc_calldata (s : State) (v : Int) : (s.withPc v).calldata = s.calldata := rfl
@[simp] theorem State.withPc_stopped (s : State) (v : Int) : (s.withPc v).stopped = s.stopped := rfl
@[simp] theorem State.withPc_returnData (s : State) (v : Int) : (s.withPc v).returnData = s.returnData := rfl
@[simp] theorem State.withPc_jds (s : State) (v : Int) : (s.withPc v).jds = s.jds := rfl
@[simp] theorem State.withPc_status (s : State) (v : Int) : (s.withPc v).status = s.status := rfl
@[simp] theorem State.withPc_fault (s : State) (v : Int) : (s.withPc v).fault = s.fault := rfl
@[simp] theorem State.withPc_budget (s : State) (v : Int) : (s.withPc v).budget = s.budget := rfl

@[simp] theorem State.withStack_config (s : State) (v : List Word) : (s.withStack v).config = s.config := rfl
@[simp] theorem State.withStack_code (s : State) (v : List Word) : (s.withStack v).code = s.code := rfl
@[simp] theorem State.withStack_pc (s : State) (v : List Word) : (s.withStack v).pc = s.pc := rfl
@[simp] theorem State.withStack_stack (s : State) (v : List Word) : (s.withStack v).stack = v := rfl
@[simp] theorem State.withStack_memory (s : State) (v : List Word) : (s.withStack v).memory = s.memory := rfl
@[simp] theorem State.withStack_calldata (s : State) (v : List Word) : (s.withStack v).calldata = s.calldata := rfl
@[simp] theorem State.withStack_stopped (s : State) (v : List Word) : (s.withStack v).stopped = s.stopped := rfl
@[simp] theorem State.withStack_returnData (s : State) (v : List Word) : (s.withStack v).returnData = s.returnData := rfl
@[simp] theorem State.withStack_jds (s : State) (v : List Word) : (s.withStack v).jds = s.jds := rfl
@[simp] theorem State.withStack_status (s : State) (v : List Word) : (s.withStack v).status = s.status := rfl
@[simp] theorem State.withStack_fault (s : State) (v : List Word) : (s.withStack v).fault = s.fault := rfl
@[simp] theorem State.withStack_budget (s : State) (v : List Word) : (s.withStack v).budget = s.budget := rfl

@[simp] theorem State.withMemory_config (s : State) (v : Memory) : (s.withMemory v).config = s.config := rfl
@[simp] theorem State.withMemory_code (s : State) (v : Memory) : (s.withMemory v).code = s.code := rfl
@[simp] theorem State.withMemory_pc (s : State) (v : Memory) : (s.withMemory v).pc = s.pc := rfl
@[simp] theorem State.withMemory_stack (s : State) (v : Memory) : (s.withMemory v).stack = s.stack := rfl
@[simp] theorem State.withMemory_memory (s : State) (v : Memory) : (s.withMemory v).memory = v := rfl
@[simp] theorem State.withMemory_calldata (s : State) (v : Memory) : (s.withMemory v).calldata = s.calldata := rfl
@[simp] theorem State.withMemory_stopped (s : State) (v : Memory) : (s.withMemory v).stopped = s.stopped := rfl
@[simp] theorem State.withMemory_returnData (s : State) (v : Memory) : (s.withMemory v).returnData = s.returnData := rfl
@[simp] theorem State.withMemory_jds (s : State) (v : Memory) : (s.withMemory v).jds = s.jds := rfl
@[simp] theorem State.withMemory_status (s : State) (v : Memory) : (s.withMemory v).status = s.status := rfl
@[simp] theorem State.withMemory_fault (s : State) (v : Memory) : (s.withMemory v).fault = s.fault := rfl
@[simp] theorem State.withMemory_budget (s : State) (v : Memory) : (s.withMemory v).budget = s.budget := rfl

@[simp] theorem State.withStopped_config (s : State) (v : Bool) : (s.withStopped v).config = s.config := rfl
@[simp] theorem State.withStopped_code (s : State) (v : Bool) : (s.withStopped v).code = s.code := rfl
@[simp] theorem State.withStopped_pc (s : State) (v : Bool) : (s.withStopped v).pc = s.pc := rfl
@[simp] theorem State.withStopped_stack (s : State) (v : Bool) : (s.withStopped v).stack = s.stack := rfl
@[simp] theorem State.withStopped_memory (s : State) (v : Bool) : (s.withStopped v).memory = s.memory := rfl
@[simp] theorem State.withStopped_calldata (s : State) (v : Bool) : (s.withStopped v).calldata = s.calldata := rfl
@[simp] theorem State.withStopped_stopped (s : State) (v : Bool) : (s.withStopped v).stopped = v := rfl
@[simp] theorem State.withStopped_returnData (s : State) (v : Bool) : (s.withStopped v).returnData = s.returnData := rfl
@[simp] theorem State.withStopped_jds (s : State) (v : Bool) : (s.withStopped v).jds = s.jds := rfl
@[simp] theorem State.withStopped_status (s : State) (v : Bool) : (s.withStopped v).status = s.status := rfl
@[simp] theorem State.withStopped_fault (s : State) (v : Bool) : (s.withStopped v).fault = s.fault := rfl
@[simp] theorem State.withStopped_budget (s : State) (v : Bool) : (s.withStopped v).budget = s.budget := rfl

@[simp] theorem State.withReturnData_config (s : State) (v : Memory) : (s.withReturnData v).config = s.config := rfl
@[simp] theorem State.withReturnData_code (s : State) (v : Memory) : (s.withReturnData v).code = s.code := rfl
@[simp] theorem State.withReturnData_pc (s : State) (v : Memory) : (s.withReturnData v).pc = s.pc := rfl
@[simp] theorem State.withReturnData_stack (s : State) (v : Memory) : (s.withReturnData v).stack = s.stack := rfl
@[simp] theorem State.withReturnData_memory (s : State) (v : Memory) : (s.withReturnData v).memory = s.memory := rfl
@[simp] theorem State.withReturnData_calldata (s : State) (v : Memory) : (s.withReturnData v).calldata = s.calldata := rfl
@[simp] theorem State.withReturnData_stopped (s : State) (v : Memory) : (s.withReturnData v).stopped = s.stopped := rfl
@[simp] theorem State.withReturnData_returnData (s : State) (v : Memory) : (s.withReturnData v).returnData = v := rfl
@[simp] theorem State.withReturnData_jds (s : State) (v : Memory) : (s.withReturnData v).jds = s.jds := rfl
@[simp] theorem State.withReturnData_status (s : State) (v : Memory) : (s.withReturnData v).status = s.status := rfl
@[simp] theorem State.withReturnData_fault (s : State) (v : Memory) : (s.withReturnData v).fault = s.fault := rfl
@[simp] theorem State.withReturnData_budget (s : State) (v : Memory) : (s.withReturnData v).budget = s.budget := rfl

@[simp] theorem State.withStatus_config (s : State) (v : Status) : (s.withStatus v).config = s.config := rfl
@[simp] theorem State.withStatus_code (s : State) (v : Status) : (s.withStatus v).code = s.code := rfl
@[simp] theorem State.withStatus_pc (s : State) (v : Status) : (s.withStatus v).pc = s.pc := rfl
@[simp] theorem State.withStatus_stack (s : State) (v : Status) : (s.withStatus v).stack = s.stack := rfl
@[simp] theorem State.withStatus_memory (s : State) (v : Status) : (s.withStatus v).memory = s.memory := rfl
@[simp] theorem State.withStatus_calldata (s : State) (v : Status) : (s.withStatus v).calldata = s.calldata := rfl
@[simp] theorem State.withStatus_stopped (s : State) (v : Status) : (s.withStatus v).stopped = s.stopped := rfl
@[simp] theorem State.withStatus_returnData (s : State) (v : Status) : (s.withStatus v).returnData = s.returnData := rfl
@[simp] theorem State.withStatus_jds (s : State) (v : Status) : (s.withStatus v).jds = s.jds := rfl
@[simp] theorem State.withStatus_status (s : State) (v : Status) : (s.withStatus v).status = v := rfl
@[simp] theorem State.withStatus_fault (s : State) (v : Status) : (s.withStatus v).fault = s.fault := rfl
@[simp] theorem State.withStatus_budget (s : State) (v : Status) : (s.withStatus v).budget = s.budget := rfl

@[simp] theorem State.withFault_config (s : State) (v : Option FaultRecord) : (s.withFault v).config = s.config := rfl
@[simp] theorem State.withFault_code (s : State) (v : Option FaultRecord) : (s.withFault v).code = s.code := rfl
@[simp] theorem State.withFault_pc (s : State) (v : Option FaultRecord) : (s.withFault v).pc = s.pc := rfl
@[simp] theorem State.withFault_stack (s : State) (v : Option FaultRecord) : (s.withFault v).stack = s.stack := rfl
@[simp] theorem State.withFault_memory (s : State) (v : Option FaultRecord) : (s.withFault v).memory = s.memory := rfl
@[simp] theorem State.withFault_calldata (s : State) (v : Option FaultRecord) : (s.withFault v).calldata = s.calldata := rfl
@[simp] theorem State.withFault_stopped (s : State) (v : Option FaultRecord) : (s.withFault v).stopped = s.stopped := rfl
@[simp] theorem State.withFault_returnData (s : State) (v : Option FaultRecord) : (s.withFault v).returnData = s.returnData := rfl
@[simp] theorem State.withFault_jds (s : State) (v : Option FaultRecord) : (s.withFault v).jds = s.jds := rfl
@[simp] theorem State.withFault_status (s : State) (v : Option FaultRecord) : (s.withFault v).status = s.status := rfl
@[simp] theorem State.withFault_fault (s : State) (v : Option FaultRecord) : (s.withFault v).fault = v := rfl
@[simp] theorem State.withFault_budget (s : State) (v : Option FaultRecord) : (s.withFault v).budget = s.budget := rfl

@[simp] theorem State.withBudget_config (s : State) (v : Bound) : (s.withBudget v).config = s.config := rfl
@[simp] theorem State.withBudget_code (s : State) (v : Bound) : (s.withBudget v).code = s.code := rfl
@[simp] theorem State.withBudget_pc (s : State) (v : Bound) : (s.withBudget v).pc = s.pc := rfl
@[simp] theorem State.withBudget_stack (s : State) (v : Bound) : (s.withBudget v).stack = s.stack := rfl
@[simp] theorem State.withBudget_memory (s : State) (v : Bound) : (s.withBudget v).memory = s.memory := rfl
@[simp] theorem State.withBudget_calldata (s : State) (v : Bound) : (s.withBudget v).calldata = s.calldata := rfl
@[simp] theorem State.withBudget_stopped (s : State) (v : Bound) : (s.withBudget v).stopped = s.stopped := rfl
@[simp] theorem State.withBudget_returnData (s : State) (v : Bound) : (s.withBudget v).returnData = s.returnData := rfl
@[simp] theorem State.withBudget_jds (s : State) (v : Bound) : (s.withBudget v).jds = s.jds := rfl
@[simp] theorem State.withBudget_status (s : State) (v : Bound) : (s.withBudget v).status = s.status := rfl
@[simp] theorem State.withBudget_fault (s : State) (v : Bound) : (s.withBudget v).fault = s.fault := rfl
@[simp] theorem State.withBudget_budget (s : State) (v : Bound) : (s.withBudget v).budget = v := rfl

@[simp] theorem State.takeFault_config (s : State) (k : FaultKind) (op : Option Byte) (opc : Int) (tg : Option Word) :
    (s.takeFault k op opc tg).config = s.config := rfl
@[simp] theorem State.takeFault_code (s : State) (k : FaultKind) (op : Option Byte) (opc : Int) (tg : Option Word) :
    (s.takeFault k op opc tg).code = s.code := rfl
@[simp] theorem State.takeFault_pc (s : State) (k : FaultKind) (op : Option Byte) (opc : Int) (tg : Option Word) :
    (s.takeFault k op opc tg).pc = s.pc := rfl
@[simp] theorem State.takeFault_stack (s : State) (k : FaultKind) (op : Option Byte) (opc : Int) (tg : Option Word) :
    (s.takeFault k op opc tg).stack = s.stack := rfl
@[simp] theorem State.takeFault_memory (s : State) (k : FaultKind) (op : Option Byte) (opc : Int) (tg : Option Word) :
    (s.takeFault k op opc tg).memory = s.memory := rfl
@[simp] theorem State.takeFault_calldata (s : State) (k : FaultKind) (op : Option Byte) (opc : Int) (tg : Option Word) :
    (s.takeFault k op opc tg).calldata = s.calldata := rfl
@[simp] theorem State.takeFault_stopped (s : State) (k : FaultKind) (op : Option Byte) (opc : Int) (tg : Option Word) :
    (s.takeFault k op opc tg).stopped = s.stopped := rfl
@[simp] theorem State.takeFault_returnData (s : State) (k : FaultKind) (op : Option Byte) (opc : Int) (tg : Option Word) :
    (s.takeFault k op opc tg).returnData = s.returnData := rfl
@[simp] theorem State.takeFault_jds (s : State) (k : FaultKind) (op : Option Byte) (opc : Int) (tg : Option Word) :
    (s.takeFault k op opc tg).jds = s.jds := rfl
@[simp] theorem State.takeFault_status (s : State) (k : FaultKind) (op : Option Byte) (opc : Int) (tg : Option Word) :
    (s.takeFault k op opc tg).status = .faulted := rfl
@[simp] theorem State.takeFault_fault (s : State) (k : FaultKind) (op : Option Byte) (opc : Int) (tg : Option Word) :
    (s.takeFault k op opc tg).fault = some ⟨k, op, opc, tg⟩ := rfl
@[simp] theorem State.takeFault_budget (s : State) (k : FaultKind) (op : Option Byte) (opc : Int) (tg : Option Word) :
    (s.takeFault k op opc tg).budget = s.budget := rfl

@[simp] theorem State.withCode_config (s : State) (c : List Byte) : (s.withCode c).config = s.config := rfl
@[simp] theorem State.withCode_code (s : State) (c : List Byte) : (s.withCode c).code = c := rfl
@[simp] theorem State.withCode_pc (s : State) (c : List Byte) : (s.withCode c).pc = s.pc := rfl
@[simp] theorem State.withCode_stack (s : State) (c : List Byte) : (s.withCode c).stack = s.stack := rfl
@[simp] theorem State.withCode_memory (s : State) (c : List Byte) : (s.withCode c).memory = s.memory := rfl
@[simp] theorem State.withCode_calldata (s : State) (c : List Byte) : (s.withCode c).calldata = s.calldata := rfl
@[simp] theorem State.withCode_stopped (s : State) (c : List Byte) : (s.withCode c).stopped = s.stopped := rfl
@[simp] theorem State.withCode_returnData (s : State) (c : List Byte) : (s.withCode c).returnData = s.returnData := rfl
@[simp] theorem State.withCode_jds (s : State) (c : List Byte) : (s.withCode c).jds = jumpDests s.config.registry c := rfl
@[simp] theorem State.withCode_status (s : State) (c : List Byte) : (s.withCode c).status = s.status := rfl
@[simp] theorem State.withCode_fault (s : State) (c : List Byte) : (s.withCode c).fault = s.fault := rfl
@[simp] theorem State.withCode_budget (s : State) (c : List Byte) : (s.withCode c).budget = s.budget := rfl

end Sys2Proof.Machine
end

