-- ==== Sys2Proof/Laws/Memory.lean ====
section
/-! SUPPORT. Byte sequences: reads after writes, and that every operation keeps the canonical form (20_memory.md R61 to
R64). -/

namespace Sys2Proof.Machine

/-! ### Cells -/

theorem cellsWf_cons {lo hi a : Nat} {b : Byte} {rest : List Host.Cell} :
    cellsWf lo hi ((a, b) :: rest) = true ↔
      lo ≤ a ∧ a < hi ∧ b ≠ unlistedByte ∧ cellsWf (a + 1) hi rest = true := by
  simp [cellsWf, and_assoc]

/-- The bounds of a canonical list may be widened. -/
theorem cellsWf_mono {cells : List Host.Cell} {lo lo' hi hi' : Nat} (hlo : lo' ≤ lo) (hhi : hi ≤ hi')
    (h : cellsWf lo hi cells = true) : cellsWf lo' hi' cells = true := by
  induction cells generalizing lo lo' with
  | nil => rfl
  | cons c rest ih =>
    obtain ⟨a, b⟩ := c
    rw [cellsWf_cons] at h ⊢
    obtain ⟨h1, h2, h3, h4⟩ := h
    exact ⟨by omega, by omega, h3, ih (Nat.le_refl _) h4⟩

/-- An offset below the lowest listed one, or at or above the bound, is not listed. -/
theorem cellsGet_of_outside {cells : List Host.Cell} {lo hi k : Nat} (h : cellsWf lo hi cells = true)
    (hk : k < lo ∨ hi ≤ k) : cellsGet k cells = unlistedByte := by
  induction cells generalizing lo with
  | nil => rfl
  | cons c rest ih =>
    obtain ⟨a, b⟩ := c
    rw [cellsWf_cons] at h
    obtain ⟨h1, h2, h3, h4⟩ := h
    simp only [cellsGet]
    rw [if_neg (by omega)]
    exact ih h4 (by omega)

theorem cellsGet_cellsSet_same {cells : List Host.Cell} {lo hi k : Nat} {b : Byte} (h : cellsWf lo hi cells = true) :
    cellsGet k (cellsSet k b cells) = b := by
  induction cells generalizing lo with
  | nil => by_cases hb : b = unlistedByte <;> simp [cellsSet, cellsGet, hb]
  | cons c rest ih =>
    obtain ⟨a, c⟩ := c
    rw [cellsWf_cons] at h
    obtain ⟨h1, h2, h3, h4⟩ := h
    simp only [cellsSet]
    split
    · have := cellsGet_of_outside h4 (k := k) (by omega)
      split
      · simp_all [cellsGet]; omega
      · simp [cellsGet]
    · split
      · subst k
        have := cellsGet_of_outside h4 (k := a) (by omega)
        split
        · simp_all
        · simp [cellsGet]
      · simp only [cellsGet]
        rw [if_neg (by omega)]
        exact ih h4

theorem cellsGet_cellsSet_other {cells : List Host.Cell} {lo hi k j : Nat} {b : Byte} (hjk : j ≠ k)
    (h : cellsWf lo hi cells = true) : cellsGet j (cellsSet k b cells) = cellsGet j cells := by
  induction cells generalizing lo with
  | nil => by_cases hb : b = unlistedByte <;> simp [cellsSet, cellsGet, hb]; omega
  | cons c rest ih =>
    obtain ⟨a, c⟩ := c
    rw [cellsWf_cons] at h
    obtain ⟨h1, h2, h3, h4⟩ := h
    simp only [cellsSet]
    split
    · split
      · rfl
      · simp only [cellsGet]; rw [if_neg (by omega)]
    · split
      · subst k
        split <;> simp only [cellsGet] <;> rw [if_neg (by omega)]
        rw [if_neg (by omega)]
      · simp only [cellsGet, ih h4]

theorem cellsWf_cellsSet {cells : List Host.Cell} {lo hi k : Nat} {b : Byte} (hlo : lo ≤ k) (hhi : k < hi)
    (h : cellsWf lo hi cells = true) : cellsWf lo hi (cellsSet k b cells) = true := by
  induction cells generalizing lo with
  | nil =>
    by_cases hb : b = unlistedByte
    · simp [cellsSet, hb, cellsWf]
    · simp only [cellsSet, if_neg hb, cellsWf_cons]; exact ⟨hlo, hhi, hb, rfl⟩
  | cons c rest ih =>
    obtain ⟨a, c⟩ := c
    have h0 := h
    rw [cellsWf_cons] at h
    obtain ⟨h1, h2, h3, h4⟩ := h
    simp only [cellsSet]
    split
    · split
      · exact h0
      · simp only [cellsWf_cons]
        exact ⟨hlo, hhi, ‹_›, by omega, h2, h3, h4⟩
    · split
      · subst k
        split
        · exact cellsWf_mono (by omega) (Nat.le_refl _) h4
        · simp only [cellsWf_cons]; exact ⟨h1, h2, ‹_›, h4⟩
      · simp only [cellsWf_cons]
        exact ⟨h1, h2, h3, ih (by omega) h4⟩

/-! ### The expansion length -/

theorem expandLen_dvd (k : Nat) : memGranule ∣ expandLen k := Dvd.intro _ rfl

theorem lt_expandLen (k : Nat) : k < expandLen k := by simp only [expandLen, memGranule]; omega

theorem expandLen_le {k m : Nat} (hm : memGranule ∣ m) (hk : k < m) : expandLen k ≤ m := by
  obtain ⟨q, rfl⟩ := hm
  simp only [expandLen, memGranule] at *
  omega

/-! ### Memory -/

@[simp] theorem Memory.empty_len : Memory.empty.len = 0 := rfl
@[simp] theorem Memory.empty_wf : Memory.empty.wf = true := rfl
@[simp] theorem Memory.grow_len (m : Memory) (n : Nat) : (m.grow n).len = max m.len n := rfl
@[simp] theorem Memory.set_len (m : Memory) (k : Nat) (b : Byte) : (m.set k b).len = m.len := rfl
@[simp] theorem Memory.range_len (m : Memory) (k n : Nat) : (m.range k n).len = n := rfl

theorem Memory.get_of_len_le {m : Memory} {k : Nat} (h : m.len ≤ k) : m.get k = 0 := by
  simp only [Memory.get]; rw [if_neg (by omega)]

/-- In canonical form, a read is the listed byte, also beyond the length. -/
theorem Memory.get_eq_cellsGet {m : Memory} (h : m.wf = true) (k : Nat) : m.get k = cellsGet k m.cells := by
  simp only [Memory.get]
  split
  · rfl
  · exact (cellsGet_of_outside h (by omega)).symm

theorem Memory.grow_wf {m : Memory} (h : m.wf = true) (n : Nat) : (m.grow n).wf = true :=
  cellsWf_mono (Nat.le_refl _) (by simp) h

/-- Expansion changes no byte: the new ones are 0 (R62). -/
theorem Memory.grow_get {m : Memory} (h : m.wf = true) (n k : Nat) : (m.grow n).get k = m.get k := by
  rw [Memory.get_eq_cellsGet (Memory.grow_wf h n), Memory.get_eq_cellsGet h]; rfl

theorem Memory.set_wf {m : Memory} (h : m.wf = true) {k : Nat} (hk : k < m.len) (b : Byte) : (m.set k b).wf = true :=
  cellsWf_cellsSet (Nat.zero_le _) hk h

theorem Memory.set_get_same {m : Memory} (h : m.wf = true) {k : Nat} (hk : k < m.len) (b : Byte) :
    (m.set k b).get k = b := by
  rw [Memory.get_eq_cellsGet (Memory.set_wf h hk b)]; exact cellsGet_cellsSet_same h

theorem Memory.set_get_other {m : Memory} (h : m.wf = true) {k j : Nat} (hjk : j ≠ k) (b : Byte) :
    (m.set k b).get j = m.get j := by
  have hc : cellsGet j (m.set k b).cells = cellsGet j m.cells := cellsGet_cellsSet_other hjk h
  simp only [Memory.get, Memory.set_len, hc]

/-! ### Range reads -/

theorem cellsGet_cellsRange (cells : List Host.Cell) (k n i : Nat) (hi : i < n) :
    cellsGet i (cellsRange k n cells) = cellsGet (k + i) cells := by
  induction cells with
  | nil => rfl
  | cons c rest ih =>
    obtain ⟨a, b⟩ := c
    by_cases h : k ≤ a ∧ a < k + n
    · have : cellsRange k n ((a, b) :: rest) = (a - k, b) :: cellsRange k n rest := by
        simp [cellsRange, h]
      rw [this]
      simp only [cellsGet, ih]
      by_cases ha : a = k + i
      · rw [if_pos (by omega), if_pos ha]
      · rw [if_neg (by omega), if_neg ha]
    · have : cellsRange k n ((a, b) :: rest) = cellsRange k n rest := by
        simp only [cellsRange, List.filter_cons]
        rw [if_neg (by simp; omega)]
      rw [this, ih]
      simp only [cellsGet]
      rw [if_neg (by omega)]

theorem cellsGet_filter (cells : List Host.Cell) (hi k : Nat) (hk : k < hi) :
    cellsGet k (cells.filter fun c => decide (c.1 < hi)) = cellsGet k cells := by
  induction cells with
  | nil => rfl
  | cons c rest ih =>
    obtain ⟨a, b⟩ := c
    by_cases h : a < hi
    · simp [h, cellsGet, ih]
    · simp only [List.filter_cons, cellsGet]
      rw [if_neg (by simpa using h), ih, if_neg (by omega)]

theorem cellsGet_filter_beyond (cells : List Host.Cell) (hi k : Nat) (hk : hi ≤ k) :
    cellsGet k (cells.filter fun c => decide (c.1 < hi)) = 0 := by
  induction cells with
  | nil => rfl
  | cons c rest ih =>
    obtain ⟨a, b⟩ := c
    by_cases h : a < hi
    · simp only [List.filter_cons]
      rw [if_pos (by simpa using h)]
      simp only [cellsGet]
      rw [if_neg (by omega)]
      exact ih
    · simp only [List.filter_cons]
      rw [if_neg (by simpa using h)]
      exact ih

/-- Byte i of `MemRead(k, n)` is byte k + i of memory, 0 at or beyond MLEN (R64). -/
theorem Memory.range_get (m : Memory) (k n i : Nat) (hi : i < n) : (m.range k n).get i = m.get (k + i) := by
  have h : (m.range k n).get i = cellsGet i (m.range k n).cells := if_pos hi
  rw [h, show (m.range k n).cells = cellsRange k n (m.cells.filter fun c => decide (c.1 < m.len)) from rfl,
    cellsGet_cellsRange _ _ _ _ hi, Memory.get]
  split
  · exact cellsGet_filter _ _ _ ‹_›
  · exact cellsGet_filter_beyond _ _ _ (by omega)

theorem cellsWf_filter {cells : List Host.Cell} {lo hi : Nat} (p : Host.Cell → Bool) (h : cellsWf lo hi cells = true) :
    cellsWf lo hi (cells.filter p) = true := by
  induction cells generalizing lo with
  | nil => rfl
  | cons c rest ih =>
    obtain ⟨a, b⟩ := c
    rw [cellsWf_cons] at h
    obtain ⟨h1, h2, h3, h4⟩ := h
    simp only [List.filter_cons]
    split
    · rw [cellsWf_cons]; exact ⟨h1, h2, h3, ih h4⟩
    · exact ih (cellsWf_mono (by omega) (Nat.le_refl _) h4)

theorem cellsWf_cellsRange {cells : List Host.Cell} {lo hi : Nat} (k n : Nat) (h : cellsWf lo hi cells = true) :
    cellsWf (lo - k) n (cellsRange k n cells) = true := by
  induction cells generalizing lo with
  | nil => rfl
  | cons c rest ih =>
    obtain ⟨a, b⟩ := c
    rw [cellsWf_cons] at h
    obtain ⟨h1, h2, h3, h4⟩ := h
    by_cases hin : k ≤ a ∧ a < k + n
    · have : cellsRange k n ((a, b) :: rest) = (a - k, b) :: cellsRange k n rest := by
        simp [cellsRange, hin]
      rw [this, cellsWf_cons]
      refine ⟨by omega, by omega, h3, ?_⟩
      have := ih h4
      rwa [show a + 1 - k = a - k + 1 by omega] at this
    · have : cellsRange k n ((a, b) :: rest) = cellsRange k n rest := by
        simp only [cellsRange, List.filter_cons]
        rw [if_neg (by simp; omega)]
      rw [this]
      exact cellsWf_mono (by omega) (Nat.le_refl _) (ih h4)

theorem Memory.range_wf {m : Memory} (h : m.wf = true) (k n : Nat) : (m.range k n).wf = true := by
  have := cellsWf_cellsRange k n (cellsWf_filter (fun c => decide (c.1 < m.len)) h)
  simpa [Memory.wf, Memory.range] using this

/-! ### Equal sequences are equal data -/

theorem cells_ext {xs ys : List Host.Cell} {lo lo' hi hi' : Nat} (hx : cellsWf lo hi xs = true)
    (hy : cellsWf lo' hi' ys = true) (h : ∀ k, cellsGet k xs = cellsGet k ys) : xs = ys := by
  induction xs generalizing ys lo lo' with
  | nil =>
    cases ys with
    | nil => rfl
    | cons c rest =>
      obtain ⟨a, b⟩ := c
      rw [cellsWf_cons] at hy
      have := h a
      simp only [cellsGet, if_true] at this
      exact absurd this.symm hy.2.2.1
  | cons c rest ih =>
    obtain ⟨a, b⟩ := c
    rw [cellsWf_cons] at hx
    obtain ⟨hx1, hx2, hx3, hx4⟩ := hx
    cases ys with
    | nil =>
      have := h a
      simp only [cellsGet, if_true] at this
      exact absurd this hx3
    | cons d rest' =>
      obtain ⟨a', b'⟩ := d
      rw [cellsWf_cons] at hy
      obtain ⟨hy1, hy2, hy3, hy4⟩ := hy
      have ha := h a
      have ha' := h a'
      simp only [cellsGet, if_true] at ha ha'
      have haa : a = a' := by
        rcases Nat.lt_trichotomy a a' with hlt | heq | hgt
        · rw [if_neg (by omega), cellsGet_of_outside hy4 (by omega)] at ha
          exact absurd ha hx3
        · exact heq
        · rw [if_neg (by omega), cellsGet_of_outside hx4 (by omega)] at ha'
          exact absurd ha'.symm hy3
      subst haa
      simp only [if_true] at ha
      subst ha
      congr 1
      apply ih hx4 hy4
      intro k
      have hk := h k
      simp only [cellsGet] at hk
      by_cases hak : a = k
      · subst hak
        rw [cellsGet_of_outside hx4 (by omega), cellsGet_of_outside hy4 (by omega)]
      · simpa [hak] using hk

/-- Two canonical byte sequences of one length with the same bytes are the same data. -/
theorem Memory.ext_get {m m' : Memory} (h : m.wf = true) (h' : m'.wf = true) (hlen : m.len = m'.len)
    (hget : ∀ k, m.get k = m'.get k) : m = m' := by
  cases m; cases m'
  simp only [Memory.mk.injEq]
  refine ⟨hlen, cells_ext h h' fun k => ?_⟩
  have := hget k
  rwa [Memory.get_eq_cellsGet h, Memory.get_eq_cellsGet h'] at this

end Sys2Proof.Machine
end

