-- ==== Sys2Proof/Laws/Ops.lean ====
section
/-! SUPPORT. One lemma for each primitive and shared operation that says all it can do; meanings are reasoned about
through these and not by unfolding the operations. -/

namespace Sys2Proof.Machine

@[simp] theorem Prim.andThen_ok {α β : Type} (v : α) (s : State) (f : α → State → Prim β) :
    (Prim.ok v s).andThen f = f v s := rfl

@[simp] theorem Prim.andThen_raise {α β : Type} (k : FaultKind) (tg : Option Word) (s : State)
    (f : α → State → Prim β) : (Prim.raise k tg s : Prim α).andThen f = .raise k tg s := rfl

/-! ### Running an instruction -/

theorem runInstr_ok {o : Op} {body : State → Prim Unit} {s t : State} (h : body s = .ok () t) :
    runInstr o body s = .next t := by simp only [runInstr, h]

theorem runInstr_raise {o : Op} {body : State → Prim Unit} {s t : State} {k : FaultKind} {tg : Option Word}
    (h : body s = .raise k tg t) :
    runInstr o body s = .next (t.takeFault k (s.config.registry.byteOf o) (s.pc - 1) tg) := by
  simp only [runInstr, h]

/-- An instruction always answers a next state: that of its body, or the one in which its fault is taken. -/
theorem runInstr_cases (o : Op) (body : State → Prim Unit) (s : State) :
    (∃ t, body s = .ok () t ∧ runInstr o body s = .next t) ∨
    (∃ k tg t, body s = .raise k tg t ∧
      runInstr o body s = .next (t.takeFault k (s.config.registry.byteOf o) (s.pc - 1) tg)) := by
  cases h : body s with
  | ok v t => exact .inl ⟨t, rfl, runInstr_ok h⟩
  | raise k tg t => exact .inr ⟨k, tg, t, rfl, runInstr_raise h⟩

/-! ### Stack primitives -/

theorem push_overflow {v : Int} {s : State} (h : stackLimit < s.stack.length + 1) :
    push v s = .raise .stackOverflow none s := by simp only [push]; rw [if_pos h]

theorem push_badItem {v : Int} {s : State} (hd : s.stack.length + 1 ≤ stackLimit)
    (hv : v < 0 ∨ (wordModulus : Int) ≤ v) : push v s = .raise .invalidStackItem none s := by
  simp only [push]; rw [if_neg (by omega), if_pos hv]

theorem push_ok {v : Int} {s : State} (hd : s.stack.length + 1 ≤ stackLimit) (h0 : 0 ≤ v)
    (h1 : v < (wordModulus : Int)) : push v s = .ok () (s.withStack (BitVec.ofInt 256 v :: s.stack)) := by
  simp only [push]; rw [if_neg (by omega), if_neg (by omega)]

/-- A push does one of three things. -/
theorem push_cases (v : Int) (s : State) :
    (stackLimit < s.stack.length + 1 ∧ push v s = .raise .stackOverflow none s) ∨
    (s.stack.length + 1 ≤ stackLimit ∧ (v < 0 ∨ (wordModulus : Int) ≤ v) ∧
      push v s = .raise .invalidStackItem none s) ∨
    (s.stack.length + 1 ≤ stackLimit ∧ 0 ≤ v ∧ v < (wordModulus : Int) ∧
      push v s = .ok () (s.withStack (BitVec.ofInt 256 v :: s.stack))) := by
  by_cases hd : stackLimit < s.stack.length + 1
  · exact .inl ⟨hd, push_overflow hd⟩
  · by_cases hv : v < 0 ∨ (wordModulus : Int) ≤ v
    · exact .inr (.inl ⟨by omega, hv, push_badItem (by omega) hv⟩)
    · exact .inr (.inr ⟨by omega, by omega, by omega, push_ok (by omega) (by omega) (by omega)⟩)

/-- The value of a natural number below 2^256, as a Word. -/
theorem ofInt_natCast (n : Nat) : BitVec.ofInt 256 (n : Int) = BitVec.ofNat 256 n := BitVec.ofInt_natCast 256 n

/-- Pushing a Word can only overflow. -/
theorem push_word {w : Word} {s : State} (hd : s.stack.length + 1 ≤ stackLimit) :
    push w.toNat s = .ok () (s.withStack (w :: s.stack)) := by
  have hw := w.isLt
  rw [push_ok hd (by omega) (by exact_mod_cast hw), ofInt_natCast, BitVec.ofNat_toNat, BitVec.setWidth_eq]

theorem pop_nil {s : State} (h : s.stack = []) : pop s = .raise .stackUnderflow none s := by simp only [pop, h]

theorem pop_cons {s : State} {w : Word} {rest : List Word} (h : s.stack = w :: rest) :
    pop s = .ok w (s.withStack rest) := by simp only [pop, h]

theorem peek_ok {n : Nat} {s : State} (h : n < s.stack.length) : peek n s = .ok s.stack[n] s := by
  simp only [peek, List.getElem?_eq_getElem h]

theorem peek_underflow {n : Nat} {s : State} (h : s.stack.length ≤ n) : peek n s = .raise .stackUnderflow none s := by
  simp only [peek, List.getElem?_eq_none h]

theorem swap_ok {n : Nat} {s : State} (h : n < s.stack.length) :
    swap n s = .ok () (s.withStack ((s.stack.set 0 s.stack[n]).set n (s.stack[0]'(by omega)))) := by
  simp only [swap, List.getElem?_eq_getElem h, List.getElem?_eq_getElem (show 0 < s.stack.length by omega)]

theorem swap_underflow {n : Nat} {s : State} (h : s.stack.length ≤ n) : swap n s = .raise .stackUnderflow none s := by
  simp only [swap, List.getElem?_eq_none h]
  cases s.stack[0]? <;> rfl

/-! ### Two operands -/

theorem popTwo_ok {s : State} {a b : Word} {rest : List Word} (h : s.stack = a :: b :: rest) :
    popTwo s = .ok (a, b) (s.withStack rest) := by
  simp only [popTwo, pop_cons h, Prim.andThen_ok]
  rw [pop_cons (rest := rest) (w := b) rfl]
  rfl

/-- Fewer than two elements: the second pop, or the first, raises; what the first removed is gone (R136). -/
theorem popTwo_underflow {s : State} (h : s.stack.length < 2) :
    popTwo s = .raise .stackUnderflow none (s.withStack []) := by
  match hs : s.stack with
  | [] =>
    simp only [popTwo, pop_nil hs, Prim.andThen_raise]
    simp only [State.withStack, ← hs]
  | [a] =>
    simp only [popTwo, pop_cons hs, Prim.andThen_ok]
    rw [pop_nil rfl]
    rfl
  | a :: b :: rest => simp only [hs, List.length_cons] at h; omega

/-- Two pops do one of two things. -/
theorem popTwo_cases (s : State) :
    (s.stack.length < 2 ∧ popTwo s = .raise .stackUnderflow none (s.withStack [])) ∨
    (∃ a b rest, s.stack = a :: b :: rest ∧ popTwo s = .ok (a, b) (s.withStack rest)) := by
  match hs : s.stack with
  | [] => exact .inl ⟨by simp, popTwo_underflow (by simp [hs])⟩
  | [a] => exact .inl ⟨by simp, popTwo_underflow (by simp [hs])⟩
  | a :: b :: rest => exact .inr ⟨a, b, rest, rfl, popTwo_ok hs⟩

/-- `BinOp(f)` on two operands, for an f whose results are Words, replaces them by the result (R130). -/
theorem binOp_ok {f : Int → Int → Int} {s : State} {a b : Word} {rest : List Word} (h : s.stack = a :: b :: rest)
    (hd : s.stack.length ≤ stackLimit)
    (hf : ∀ l r : Word, 0 ≤ f l.toNat r.toNat ∧ f l.toNat r.toNat < (wordModulus : Int)) :
    binOp f s = .ok () (s.withStack (BitVec.ofInt 256 (f (orderOperands s.config.operandOrder a b).1.toNat
      (orderOperands s.config.operandOrder a b).2.toNat) :: rest)) := by
  simp only [binOp, popTwo_ok h, Prim.andThen_ok]
  rw [h] at hd
  simp only [List.length_cons] at hd
  rw [push_ok (by simp only [State.withStack_stack]; omega) (hf _ _).1 (hf _ _).2]
  rfl

theorem binOp_underflow {f : Int → Int → Int} {s : State} (h : s.stack.length < 2) :
    binOp f s = .raise .stackUnderflow none (s.withStack []) := by
  simp only [binOp, popTwo_underflow h, Prim.andThen_raise]

/-! ### Jumps -/

theorem jumpTo_ok {t : Word} {s : State} (h : t.toNat ∈ s.jds) : jumpTo t s = .ok () (s.withPc t.toNat) := by
  simp only [jumpTo, if_pos h]

theorem jumpTo_bad {t : Word} {s : State} (h : t.toNat ∉ s.jds) :
    jumpTo t s = .raise .invalidJumpDestination (some t) s := by simp only [jumpTo, if_neg h]

/-! ### Memory writes -/

/-- A store of a byte at a Word or any natural offset either exceeds MEM_LIMIT or happens (R62). -/
theorem memWrite_ok {k : Nat} {v : Byte} {s : State}
    (h : expandLen k ≤ s.memory.len ∨ s.config.memLimit.exceededBy (expandLen k) = false) :
    memWrite k v.toNat s = .ok () (s.withMemory ((s.memory.grow (expandLen k)).set k v)) := by
  have hv := v.isLt
  simp only [memWrite, Int.toNat_natCast]
  rw [if_neg (by omega), if_neg (by omega), if_neg (by rintro ⟨h1, h2⟩; rcases h with h | h <;> [omega; simp [h] at h2]),
    BitVec.ofInt_natCast, BitVec.ofNat_toNat, BitVec.setWidth_eq]

theorem memWrite_limit {k : Nat} {v : Byte} {s : State} (h : s.memory.len < expandLen k)
    (hl : s.config.memLimit.exceededBy (expandLen k) = true) :
    memWrite k v.toNat s = .raise .memoryLimitExceeded none s := by
  have hv := v.isLt
  simp only [memWrite, Int.toNat_natCast]
  rw [if_neg (by omega), if_neg (by omega), if_pos ⟨h, hl⟩]

/-- A completed store keeps the canonical form (R62). -/
theorem memWrite_wf {k v : Int} {s t : State} (hm : s.memory.wf = true) (h : memWrite k v s = .ok () t) :
    t.memory.wf = true := by
  simp only [memWrite] at h
  split at h
  · cases h
  · split at h
    · cases h
    · split at h
      · cases h
      · injection h with _ h
        subst h
        have := lt_expandLen k.toNat
        exact Memory.set_wf (Memory.grow_wf hm _) (by simp only [Memory.grow_len]; omega) _

/-- The low byte of a Word as MSTORE8 presents it to the store (R230). -/
theorem lowByte_toNat (val : Word) : (BitVec.ofNat 8 (val.toNat % 256)).toNat = val.toNat % 256 := by
  rw [BitVec.toNat_ofNat]; omega

end Sys2Proof.Machine
end

