-- ==== Sys2Proof/Laws/Exec.lean ====
section
/-! SUPPORT. What executing an instruction can do, said once: `exec_cases`. -/

namespace Sys2Proof.Machine

/-! ### Kinds and instructions -/

@[simp] theorem pushInstr_op (n : Fin 32) (imm : Word) : (pushInstr n imm).op = .push n := by
  unfold pushInstr; split <;> first | rfl | omega

@[simp] theorem pushInstr_imm (n : Fin 32) (imm : Word) : (pushInstr n imm).imm = imm := by
  unfold pushInstr; split <;> first | rfl | omega

@[simp] theorem dupInstr_op (n : Fin 16) : (dupInstr n).op = .dup n := by revert n; decide

@[simp] theorem swapInstr_op (n : Fin 16) : (swapInstr n).op = .swap n := by revert n; decide

/-- Every instruction is the one that its kind and its immediate give. -/
theorem toInstr_op_imm (i : Instr) : i.op.toInstr i.imm = i := by cases i <;> rfl

theorem toInstr_op (o : Op) (imm : Word) : (o.toInstr imm).op = o := by
  cases o with
  | push n => exact pushInstr_op n imm
  | dup n => exact dupInstr_op n
  | swap n => exact swapInstr_op n
  | _ => rfl

/-- The pseudocode of each kind of instruction, in one place (R91's table of rules). -/
def opBody (o : Op) (imm : Word) : State → Prim Unit :=
  match o with
  | .stop => fun t => .ok () ((setStoppedFlag t).withReturnData Memory.empty)
  | .add => binOp addWords
  | .mul => binOp mulWords
  | .sub => binOp subWords
  | .div => binOp divWords
  | .pop => fun t => (pop t).andThen fun _ t1 => .ok () t1
  | .mstore8 => mstore8Body
  | .jump => fun s0 => (pop s0).andThen fun t s1 => jumpTo t s1
  | .jumpi => jumpiBody
  | .pc => fun t => push (t.pc - 1) t
  | .msize => fun t => push (activeWords t) t
  | .jumpdest => fun t => .ok () t
  | .push n => pushBody n imm
  | .dup n => dupBody n
  | .swap n => swapBody n
  | .ret => returnBody

/-- Executing an instruction is running its kind's pseudocode. -/
theorem exec_eq_runInstr (i : Instr) (s : State) : exec i s = runInstr i.op (opBody i.op i.imm) s := by
  cases i <;> rfl

/-- PUSH1 to PUSH32 are one template (R150). -/
theorem exec_pushInstr (n : Fin 32) (imm : Word) (s : State) :
    exec (pushInstr n imm) s = runInstr (.push n) (pushBody n imm) s := by
  rw [exec_eq_runInstr, pushInstr_op, pushInstr_imm]; rfl

/-- DUP1 to DUP16 are one template (R183). -/
theorem exec_dupInstr (n : Fin 16) (s : State) : exec (dupInstr n) s = runInstr (.dup n) (dupBody n) s := by
  rw [exec_eq_runInstr, dupInstr_op]; rfl

/-- SWAP1 to SWAP16 are one template (R200). -/
theorem exec_swapInstr (n : Fin 16) (s : State) : exec (swapInstr n) s = runInstr (.swap n) (swapBody n) s := by
  rw [exec_eq_runInstr, swapInstr_op]; rfl

/-- Where an instruction's pseudocode completes, so does the instruction. -/
theorem exec_of_body_ok {i : Instr} {s t : State} (h : opBody i.op i.imm s = .ok () t) : exec i s = .next t := by
  rw [exec_eq_runInstr]; exact runInstr_ok h

/-- Where an instruction's pseudocode raises, its fault is taken (R273, R277). -/
theorem exec_of_body_raise {i : Instr} {s t : State} {k : FaultKind} {tg : Option Word}
    (h : opBody i.op i.imm s = .raise k tg t) :
    exec i s = .next (t.takeFault k (s.config.registry.byteOf i.op) (s.pc - 1) tg) := by
  rw [exec_eq_runInstr]; exact runInstr_raise h

/-! ### What a completed instruction did -/

/-- The effect of an instruction of kind `o` that completes, from `s` (10_state.md R50). -/
inductive Ran (o : Op) (s : State) : State → Prop where
  /-- Everything but STOP, RETURN and MSTORE8: the stack and pc. -/
  | stackAndPc (st : List Word) (p : Int) (ho : o ≠ .stop ∧ o ≠ .ret ∧ o ≠ .mstore8)
      (hst : st.length ≤ s.stack.length ∨ st.length ≤ stackLimit)
      (hp : (p = s.pc + o.immWidth ∧ o ≠ .jump) ∨
        ((o = .jump ∨ o = .jumpi) ∧ ∃ w, s.stack.head? = some w ∧ w.toNat ∈ s.jds ∧ p = w.toNat)) :
      Ran o s ((s.withStack st).withPc p)
  | store (off val : Word) (rest : List Word) (ho : o = .mstore8) (hs : s.stack = off :: val :: rest)
      (hl : expandLen off.toNat ≤ s.memory.len ∨ s.config.memLimit.exceededBy (expandLen off.toNat) = false) :
      Ran o s ((s.withStack rest).withMemory
        ((s.memory.grow (expandLen off.toNat)).set off.toNat (BitVec.ofNat 8 (val.toNat % 256))))
  | stop (ho : o = .stop) : Ran o s ((s.withStopped true).withReturnData Memory.empty)
  | ret (off len : Word) (rest : List Word) (ho : o = .ret) (hs : s.stack = off :: len :: rest)
      (hl : s.config.retdataLimit.exceededBy len.toNat = false) :
      Ran o s (((s.withStack rest).withReturnData (s.memory.range off.toNat len.toNat)).withStopped true)

/-- No completed instruction writes the configuration, the code, the calldata, JDS, the status, the fault record or
the budget (10_state.md R50). -/
theorem Ran.unwritten {o : Op} {s t : State} (h : Ran o s t) :
    t.config = s.config ∧ t.code = s.code ∧ t.calldata = s.calldata ∧ t.jds = s.jds ∧ t.status = s.status ∧
    t.fault = s.fault ∧ t.budget = s.budget := by
  cases h <;> exact ⟨rfl, rfl, rfl, rfl, rfl, rfl, rfl⟩

/-- The effect of a kind that leaves pc alone. -/
theorem Ran.stackOnly {o : Op} {s : State} (st : List Word) (ho : o ≠ .stop ∧ o ≠ .ret ∧ o ≠ .mstore8) (hj : o ≠ .jump)
    (hw : o.immWidth = 0) (hst : st.length ≤ s.stack.length) : Ran o s (s.withStack st) :=
  .stackAndPc st s.pc ho (.inl hst) (.inl ⟨by simp [hw], hj⟩)

/-- What an instruction that raises `k` left behind, as far as the run is concerned: the stopped flag and the fault
record's own fields (R271, R273). -/
structure Raised (s : State) (k : FaultKind) (tg : Option Word) (t : State) : Prop where
  stopped : t.stopped = s.stopped
  kind : k ∈ reachableKinds ∧ k ≠ .unknownOpcode
  target : (k = .invalidJumpDestination ∧ ∃ w, s.stack.head? = some w ∧ tg = some w) ∨
    (k ≠ .invalidJumpDestination ∧ tg = none)

theorem Raised.of_kind {s t : State} {k : FaultKind} (hs : t.stopped = s.stopped)
    (hk : k ∈ reachableKinds ∧ k ≠ .unknownOpcode ∧ k ≠ .invalidJumpDestination) : Raised s k none t :=
  ⟨hs, ⟨hk.1, hk.2.1⟩, .inr ⟨hk.2.2, rfl⟩⟩

/-- A body either completes with the effect of its kind or raises. -/
def Outcomes (o : Op) (s : State) (p : Prim Unit) : Prop :=
  (∃ t, p = .ok () t ∧ Ran o s t) ∨ (∃ k tg t, p = .raise k tg t ∧ Raised s k tg t)

theorem outcomes_underflow {o : Op} {s t : State} {p : Prim Unit} (hp : p = .raise .stackUnderflow none t)
    (ht : t.stopped = s.stopped) : Outcomes o s p :=
  .inr ⟨_, _, _, hp, Raised.of_kind ht (by decide)⟩

/-- A push as the last act of a stack instruction. -/
theorem outcomes_push {o : Op} {s s' : State} {v : Int} {st : List Word} {p : Int}
    (ho : o ≠ .stop ∧ o ≠ .ret ∧ o ≠ .mstore8) (hj : o ≠ .jump) (hs' : s' = (s.withStack st).withPc p)
    (hp : p = s.pc + o.immWidth) : Outcomes o s (push v s') := by
  subst hs'
  rcases push_cases v ((s.withStack st).withPc p) with ⟨_, h⟩ | ⟨_, _, h⟩ | ⟨hd, _, _, h⟩
  · exact .inr ⟨_, _, _, h, Raised.of_kind rfl (by decide)⟩
  · exact .inr ⟨_, _, _, h, Raised.of_kind rfl (by decide)⟩
  · exact .inl ⟨_, h, .stackAndPc _ p ho (.inr (by simpa using hd)) (.inl ⟨hp, hj⟩)⟩

theorem State.eq_withStack_withPc (s : State) : s = (s.withStack s.stack).withPc s.pc := rfl

theorem outcomes_binOp {o : Op} {f : Int → Int → Int} (s : State) (ho : o ≠ .stop ∧ o ≠ .ret ∧ o ≠ .mstore8)
    (hj : o ≠ .jump) (hw : o.immWidth = 0) : Outcomes o s (binOp f s) := by
  rcases popTwo_cases s with ⟨_, h⟩ | ⟨a, b, rest, _, h⟩
  · exact outcomes_underflow (t := s.withStack []) (by simp only [binOp, h, Prim.andThen_raise]) rfl
  · simp only [binOp, h, Prim.andThen_ok]
    exact outcomes_push ho hj (st := rest) (p := s.pc) rfl (by simp [hw])

theorem outcomes_jumpTo {o : Op} {s : State} {w : Word} {st : List Word} (ho : o = .jump ∨ o = .jumpi)
    (hst : st.length ≤ s.stack.length) (hw : s.stack.head? = some w) : Outcomes o s (jumpTo w (s.withStack st)) := by
  by_cases h : w.toNat ∈ s.jds
  · refine .inl ⟨_, jumpTo_ok (s := s.withStack st) h, ?_⟩
    exact .stackAndPc st w.toNat (by rcases ho with rfl | rfl <;> decide) (.inl hst) (.inr ⟨ho, w, hw, h, rfl⟩)
  · exact .inr ⟨_, _, _, jumpTo_bad (s := s.withStack st) h,
      ⟨rfl, by decide, .inl ⟨rfl, w, hw, rfl⟩⟩⟩

/-- One step of the case analysis: every kind's body completes with its effect or raises. -/
theorem opBody_outcomes (o : Op) (imm : Word) (s : State) : Outcomes o s (opBody o imm s) := by
  cases o with
  | stop => exact .inl ⟨_, rfl, .stop rfl⟩
  | add => exact outcomes_binOp s (by decide) (by decide) rfl
  | mul => exact outcomes_binOp s (by decide) (by decide) rfl
  | sub => exact outcomes_binOp s (by decide) (by decide) rfl
  | div => exact outcomes_binOp s (by decide) (by decide) rfl
  | pop =>
    cases hs : s.stack with
    | nil => exact outcomes_underflow (t := s) (by simp only [opBody, pop_nil hs, Prim.andThen_raise]) rfl
    | cons w rest =>
      refine .inl ⟨s.withStack rest, by simp only [opBody, pop_cons hs, Prim.andThen_ok], ?_⟩
      exact .stackOnly rest (by decide) (by decide) rfl (by simp [hs])
  | mstore8 =>
    rcases popTwo_cases s with ⟨_, h⟩ | ⟨off, val, rest, hs, h⟩
    · exact outcomes_underflow (t := s.withStack []) (by simp only [opBody, mstore8Body, h, Prim.andThen_raise]) rfl
    · simp only [opBody, mstore8Body, h, Prim.andThen_ok]
      rw [← lowByte_toNat]
      by_cases hl : s.memory.len < expandLen off.toNat ∧ s.config.memLimit.exceededBy (expandLen off.toNat) = true
      · exact .inr ⟨_, _, _, memWrite_limit (s := s.withStack rest) hl.1 hl.2, Raised.of_kind rfl (by decide)⟩
      · have hl' : expandLen off.toNat ≤ s.memory.len ∨ s.config.memLimit.exceededBy (expandLen off.toNat) = false := by
          by_cases h1 : s.memory.len < expandLen off.toNat
          · exact .inr (by simpa using fun h2 => hl ⟨h1, h2⟩)
          · exact .inl (by omega)
        exact .inl ⟨_, memWrite_ok (s := s.withStack rest) hl', .store off val rest rfl hs hl'⟩
  | jump =>
    cases hs : s.stack with
    | nil => exact outcomes_underflow (t := s) (by simp only [opBody, pop_nil hs, Prim.andThen_raise]) rfl
    | cons w rest =>
      simp only [opBody, pop_cons hs, Prim.andThen_ok]
      exact outcomes_jumpTo (.inl rfl) (by simp [hs]) (by simp [hs])
  | jumpi =>
    rcases popTwo_cases s with ⟨_, h⟩ | ⟨w, c, rest, hs, h⟩
    · exact outcomes_underflow (t := s.withStack []) (by simp only [opBody, jumpiBody, h, Prim.andThen_raise]) rfl
    · simp only [opBody, jumpiBody, h, Prim.andThen_ok]
      split
      · exact outcomes_jumpTo (.inr rfl) (by simp [hs]; omega) (by simp [hs])
      · exact .inl ⟨_, rfl, .stackOnly rest (by decide) (by decide) rfl (by simp [hs]; omega)⟩
  | pc => exact outcomes_push (by decide) (by decide) s.eq_withStack_withPc (by simp [Op.immWidth])
  | msize => exact outcomes_push (by decide) (by decide) s.eq_withStack_withPc (by simp [Op.immWidth])
  | jumpdest =>
    exact .inl ⟨_, rfl, .stackOnly s.stack (by decide) (by decide) rfl (Nat.le_refl _)⟩
  | push n =>
    exact outcomes_push (st := s.stack) (p := s.pc + (n.val + 1 : Nat)) (by simp) (by simp) rfl rfl
  | dup n =>
    by_cases h : n.val < s.stack.length
    · simp only [opBody, dupBody, peek_ok h, Prim.andThen_ok]
      exact outcomes_push (by simp) (by simp) s.eq_withStack_withPc (by simp [Op.immWidth])
    · exact outcomes_underflow (t := s)
        (by simp only [opBody, dupBody, peek_underflow (show s.stack.length ≤ n.val by omega), Prim.andThen_raise]) rfl
  | swap n =>
    by_cases h : n.val + 1 < s.stack.length
    · exact .inl ⟨_, swap_ok h, .stackOnly _ (by simp) (by simp) rfl (by simp)⟩
    · exact outcomes_underflow (t := s) (swap_underflow (by omega)) rfl
  | ret =>
    rcases popTwo_cases s with ⟨_, h⟩ | ⟨off, len, rest, hs, h⟩
    · exact outcomes_underflow (t := s.withStack []) (by simp only [opBody, returnBody, h, Prim.andThen_raise]) rfl
    · simp only [opBody, returnBody, h, Prim.andThen_ok]
      by_cases hl : s.config.retdataLimit.exceededBy len.toNat = true
      · exact .inr ⟨.returnDataLimitExceeded, none, s.withStack rest, by simp only [State.withStack_config, hl, if_true],
          Raised.of_kind rfl (by decide)⟩
      · have hl' : s.config.retdataLimit.exceededBy len.toNat = false := by simpa using hl
        exact .inl ⟨_, by simp only [State.withStack_config, hl', Bool.false_eq_true, if_false]; rfl,
          .ret off len rest rfl hs hl'⟩

/-- What executing an instruction can do: it always answers a next state, either with the effect of its kind or with
its fault taken (R95, R273, R277). -/
theorem exec_cases (i : Instr) (s : State) :
    (∃ t, exec i s = .next t ∧ Ran i.op s t) ∨
    (∃ k tg t, exec i s = .next (t.takeFault k (s.config.registry.byteOf i.op) (s.pc - 1) tg) ∧ Raised s k tg t) := by
  rw [exec_eq_runInstr]
  rcases opBody_outcomes i.op i.imm s with ⟨t, h, hr⟩ | ⟨k, tg, t, h, hr⟩
  · exact .inl ⟨t, runInstr_ok h, hr⟩
  · exact .inr ⟨k, tg, t, runInstr_raise h, hr⟩

/-- An instruction whose next state is not Faulted did what its kind does. -/
theorem exec_ran {i : Instr} {s t : State} (h : exec i s = .next t) (hf : t.status ≠ .faulted) : Ran i.op s t := by
  rcases exec_cases i s with ⟨t', h', hr⟩ | ⟨k, tg, t', h', _⟩
  · rw [h] at h'; injection h' with h'; exact h' ▸ hr
  · rw [h] at h'; injection h' with h'; exact absurd (by rw [h']; rfl) hf

end Sys2Proof.Machine
end

