-- ==== Sys2Proof/Laws/PerInstr.lean ====
section
/-! SUPPORT. Statements about every instruction as syntax, one lemma per constructor. -/

namespace Sys2Proof.Laws.EncodedForm

/-- An encoding begins with the opcode byte of the instruction's kind and has the instruction's length, 1 byte or
1 + n for PUSHn (30_encoding.md R90, R91). -/
def Statement (i : Instr) : Prop :=
  ∀ (r : Registry) (b : Byte), r.byteOf i.op = some b →
    (encode r i).head? = some b ∧ (encode r i).length = i.length

/-- The statement holds whatever the kind: only the width of the immediate matters. -/
theorem of_byte (i : Instr) : Statement i := by
  intro r b hb
  simp only [encode, hb, Instr.length, List.head?_cons, List.length_cons, beBytes_length, true_and]
  omega

theorem stop : Statement .stop := of_byte _
theorem add : Statement .add := of_byte _
theorem mul : Statement .mul := of_byte _
theorem sub : Statement .sub := of_byte _
theorem div : Statement .div := of_byte _
theorem pop : Statement .pop := of_byte _
theorem mstore8 : Statement .mstore8 := of_byte _
theorem jump : Statement .jump := of_byte _
theorem jumpi : Statement .jumpi := of_byte _
theorem pc : Statement .pc := of_byte _
theorem msize : Statement .msize := of_byte _
theorem jumpdest : Statement .jumpdest := of_byte _
theorem push1 (imm : Word) : Statement (.push1 imm) := of_byte _
theorem push2 (imm : Word) : Statement (.push2 imm) := of_byte _
theorem push3 (imm : Word) : Statement (.push3 imm) := of_byte _
theorem push4 (imm : Word) : Statement (.push4 imm) := of_byte _
theorem push5 (imm : Word) : Statement (.push5 imm) := of_byte _
theorem push6 (imm : Word) : Statement (.push6 imm) := of_byte _
theorem push7 (imm : Word) : Statement (.push7 imm) := of_byte _
theorem push8 (imm : Word) : Statement (.push8 imm) := of_byte _
theorem push9 (imm : Word) : Statement (.push9 imm) := of_byte _
theorem push10 (imm : Word) : Statement (.push10 imm) := of_byte _
theorem push11 (imm : Word) : Statement (.push11 imm) := of_byte _
theorem push12 (imm : Word) : Statement (.push12 imm) := of_byte _
theorem push13 (imm : Word) : Statement (.push13 imm) := of_byte _
theorem push14 (imm : Word) : Statement (.push14 imm) := of_byte _
theorem push15 (imm : Word) : Statement (.push15 imm) := of_byte _
theorem push16 (imm : Word) : Statement (.push16 imm) := of_byte _
theorem push17 (imm : Word) : Statement (.push17 imm) := of_byte _
theorem push18 (imm : Word) : Statement (.push18 imm) := of_byte _
theorem push19 (imm : Word) : Statement (.push19 imm) := of_byte _
theorem push20 (imm : Word) : Statement (.push20 imm) := of_byte _
theorem push21 (imm : Word) : Statement (.push21 imm) := of_byte _
theorem push22 (imm : Word) : Statement (.push22 imm) := of_byte _
theorem push23 (imm : Word) : Statement (.push23 imm) := of_byte _
theorem push24 (imm : Word) : Statement (.push24 imm) := of_byte _
theorem push25 (imm : Word) : Statement (.push25 imm) := of_byte _
theorem push26 (imm : Word) : Statement (.push26 imm) := of_byte _
theorem push27 (imm : Word) : Statement (.push27 imm) := of_byte _
theorem push28 (imm : Word) : Statement (.push28 imm) := of_byte _
theorem push29 (imm : Word) : Statement (.push29 imm) := of_byte _
theorem push30 (imm : Word) : Statement (.push30 imm) := of_byte _
theorem push31 (imm : Word) : Statement (.push31 imm) := of_byte _
theorem push32 (imm : Word) : Statement (.push32 imm) := of_byte _
theorem dup1 : Statement .dup1 := of_byte _
theorem dup2 : Statement .dup2 := of_byte _
theorem dup3 : Statement .dup3 := of_byte _
theorem dup4 : Statement .dup4 := of_byte _
theorem dup5 : Statement .dup5 := of_byte _
theorem dup6 : Statement .dup6 := of_byte _
theorem dup7 : Statement .dup7 := of_byte _
theorem dup8 : Statement .dup8 := of_byte _
theorem dup9 : Statement .dup9 := of_byte _
theorem dup10 : Statement .dup10 := of_byte _
theorem dup11 : Statement .dup11 := of_byte _
theorem dup12 : Statement .dup12 := of_byte _
theorem dup13 : Statement .dup13 := of_byte _
theorem dup14 : Statement .dup14 := of_byte _
theorem dup15 : Statement .dup15 := of_byte _
theorem dup16 : Statement .dup16 := of_byte _
theorem swap1 : Statement .swap1 := of_byte _
theorem swap2 : Statement .swap2 := of_byte _
theorem swap3 : Statement .swap3 := of_byte _
theorem swap4 : Statement .swap4 := of_byte _
theorem swap5 : Statement .swap5 := of_byte _
theorem swap6 : Statement .swap6 := of_byte _
theorem swap7 : Statement .swap7 := of_byte _
theorem swap8 : Statement .swap8 := of_byte _
theorem swap9 : Statement .swap9 := of_byte _
theorem swap10 : Statement .swap10 := of_byte _
theorem swap11 : Statement .swap11 := of_byte _
theorem swap12 : Statement .swap12 := of_byte _
theorem swap13 : Statement .swap13 := of_byte _
theorem swap14 : Statement .swap14 := of_byte _
theorem swap15 : Statement .swap15 := of_byte _
theorem swap16 : Statement .swap16 := of_byte _
theorem ret : Statement .ret := of_byte _

end Sys2Proof.Laws.EncodedForm
end

