-- ==== Sys2Proof/Laws/Step.lean ====
section
/-! SUPPORT. What one step can do, said once: `step_cases`. -/

namespace Sys2Proof.Machine

@[simp] theorem mapNext_next (f : State → State) (t : State) : mapNext f (.next t) = .next (f t) := rfl

/-- A raised fault ends the step: the last line of the loop does not touch it (R110). -/
@[simp] theorem stoppedStatus_takeFault (s : State) (k : FaultKind) (op : Option Byte) (opc : Int) (tg : Option Word) :
    stoppedStatus (s.takeFault k op opc tg) = s.takeFault k op opc tg := by
  simp [stoppedStatus]

theorem stoppedStatus_of_stopped {s : State} (h1 : s.status = .running) (h2 : s.stopped = true) :
    stoppedStatus s = s.withStatus .stopped := by simp only [stoppedStatus, h1, h2, and_self, if_true]

theorem stoppedStatus_of_not_stopped {s : State} (h : s.stopped = false) : stoppedStatus s = s := by
  simp [stoppedStatus, h]

/-- The last line of the loop changes the status only. -/
theorem stoppedStatus_eq (s : State) : ∃ st, stoppedStatus s = s.withStatus st := by
  simp only [stoppedStatus]
  split
  · exact ⟨_, rfl⟩
  · exact ⟨s.status, rfl⟩

theorem exec_stop (s : State) : exec .stop s = .next ((s.withStopped true).withReturnData Memory.empty) := rfl

/-- The state in which an instruction executes: one step of budget spent, pc past the opcode byte (R110, R111). -/
abbrev entered (s : State) : State := (s.withBudget s.budget.pred).withPc (s.pc + 1)

/-- The step of a context that decodes, by what stands at pc (R111). -/
inductive Stepped (s : State) : State → Prop where
  | negativePc (hpc : s.pc < 0) :
      Stepped s ((s.withBudget s.budget.pred).takeFault .invalidCodeOffset none s.pc none)
  | implicitStop (hpc : (s.code.length : Int) ≤ s.pc) :
      Stepped s ((((s.withBudget s.budget.pred).withStopped true).withReturnData Memory.empty).withStatus .stopped)
  | unknown (op : Byte) (hpc : 0 ≤ s.pc) (hop : s.code[s.pc.toNat]? = some op)
      (hslot : s.config.registry.slot op = .invalid) :
      Stepped s ((entered s).takeFault .unknownOpcode (some op) s.pc none)
  | ran (op : Byte) (o : Op) (t : State) (hpc : 0 ≤ s.pc) (hop : s.code[s.pc.toNat]? = some op)
      (hslot : s.config.registry.slot op = .op o)
      (hex : exec (o.toInstr (immRead s.code (s.pc.toNat + 1) o.immWidth)) (entered s) = .next t)
      (hr : Ran o (entered s) t) : Stepped s (stoppedStatus t)
  | raised (op : Byte) (o : Op) (k : FaultKind) (tg : Option Word) (t : State) (hpc : 0 ≤ s.pc)
      (hop : s.code[s.pc.toNat]? = some op) (hslot : s.config.registry.slot op = .op o)
      (hex : exec (o.toInstr (immRead s.code (s.pc.toNat + 1) o.immWidth)) (entered s) =
        .next (t.takeFault k (s.config.registry.byteOf o) s.pc tg))
      (hr : Raised (entered s) k tg t) : Stepped s (t.takeFault k (s.config.registry.byteOf o) s.pc tg)

/-- What `fetch` finds, by the byte at pc (R111). -/
theorem fetch_cases (s : State) :
    (s.pc < 0 ∧ fetch s = .negativePc) ∨
    (0 ≤ s.pc ∧ (s.code.length : Int) ≤ s.pc ∧ fetch s = .implicitStop) ∨
    (∃ op, 0 ≤ s.pc ∧ s.code[s.pc.toNat]? = some op ∧ s.config.registry.slot op = .invalid ∧ fetch s = .unknown op) ∨
    (∃ op o, 0 ≤ s.pc ∧ s.code[s.pc.toNat]? = some op ∧ s.config.registry.slot op = .op o ∧
      fetch s = .instr (o.toInstr (immRead s.code (s.pc.toNat + 1) o.immWidth))) := by
  by_cases hn : s.pc < 0
  · exact .inl ⟨hn, by simp only [fetch, if_pos hn]⟩
  · have h0 : 0 ≤ s.pc := by omega
    rcases decode_drop s.config.registry s.code s.pc.toNat with ⟨hp, h⟩ | ⟨b, hb, hs, h⟩ | ⟨b, o, hb, hs, h⟩
    · exact .inr (.inl ⟨h0, by omega, by simp only [fetch, if_neg hn, h]⟩)
    · exact .inr (.inr (.inl ⟨b, h0, hb, hs, by simp only [fetch, if_neg hn, h]⟩))
    · exact .inr (.inr (.inr ⟨b, o, h0, hb, hs, by simp only [fetch, if_neg hn, h]⟩))

/-- A running context with budget left spends one step of it and decodes (R110). -/
theorem step_running {s : State} (h : Steps s) :
    step s = mapNext stoppedStatus (decodeAndExecute (s.withBudget s.budget.pred)) := by
  simp only [step, loopStep]
  rw [h.1]
  exact if_neg (by rw [h.2]; exact Bool.false_ne_true)

/-- A running context without budget suspends (R110). -/
theorem step_suspends {s : State} (hrun : s.status = .running) (h : s.budget.isZero = true) :
    step s = .next (s.withStatus .suspended) := by
  simp only [step, loopStep]
  rw [hrun]
  exact if_pos h

/-- An ended run has no step (R110, R316). -/
theorem step_ended {s : State} (h : s.status ≠ .running) : step s = .fault (.runEnded s.status) := by
  simp only [step, loopStep]

/-! ### Instruction boundaries (R100) -/

/-- No boundary lies inside a boundary's instruction. -/
theorem boundary_gap {r : Registry} {code : List Byte} {x y : Nat} {b : Byte} (hx : Boundary r code x)
    (hy : Boundary r code y) (hb : code[x]? = some b) (hlt : x < y) : x + 1 + r.operandWidth b ≤ y := by
  induction hN : x + y using Nat.strongRecOn generalizing x y b with
  | ind N ih =>
    cases hy with
    | zero => omega
    | next z c hz hc =>
      rcases Nat.lt_trichotomy x z with h | h | h
      · have := ih (x + z) (by omega) hx hz hb h rfl
        omega
      · subst h
        rw [hc] at hb
        injection hb with hb
        subst hb
        exact Nat.le_refl _
      · have := ih (z + x) (by omega) hz hx hc h rfl
        omega

/-! ### Steps -/

/-- A running context with budget left always has a step, of one of five shapes (R110, R111). -/
theorem step_stepped {s : State} (h : Steps s) : ∃ t, step s = .next t ∧ Stepped s t := by
  have hrun := h.1
  have hfetch : fetch (s.withBudget s.budget.pred) = fetch s := rfl
  rw [step_running h]
  rcases fetch_cases s with ⟨hn, hf⟩ | ⟨h0, hlen, hf⟩ | ⟨op, h0, hop, hs, hf⟩ | ⟨op, o, h0, hop, hs, hf⟩
  · refine ⟨_, ?_, .negativePc hn⟩
    simp only [decodeAndExecute, hfetch, hf, mapNext_next, stoppedStatus_takeFault]; rfl
  · refine ⟨_, ?_, .implicitStop hlen⟩
    simp only [decodeAndExecute, hfetch, hf, exec_stop, mapNext_next]
    rw [stoppedStatus_of_stopped (by simpa using hrun) (by simp)]
  · refine ⟨_, ?_, .unknown op h0 hop hs⟩
    simp only [decodeAndExecute, hfetch, hf, mapNext_next, stoppedStatus_takeFault]; rfl
  · have hd : decodeAndExecute (s.withBudget s.budget.pred) =
        exec (o.toInstr (immRead s.code (s.pc.toNat + 1) o.immWidth)) (entered s) := by
      simp only [decodeAndExecute, hfetch, hf]; rfl
    rw [hd]
    rcases exec_cases (o.toInstr (immRead s.code (s.pc.toNat + 1) o.immWidth)) (entered s) with
      ⟨t, hex, hr⟩ | ⟨k, tg, t, hex, hr⟩
    · rw [toInstr_op] at hr
      exact ⟨_, by rw [hex, mapNext_next], .ran op o t h0 hop hs hex hr⟩
    · rw [toInstr_op, show (entered s).pc - 1 = s.pc by simp [entered]] at hex
      exact ⟨_, by rw [hex, mapNext_next, stoppedStatus_takeFault]; rfl, .raised op o k tg t h0 hop hs hex hr⟩

/-- What one step can do: suspend on a used-up budget, or one of the five shapes of `Stepped`; an ended run has no
step. -/
theorem step_cases {s t : State} (h : step s = .next t) :
    s.status = .running ∧
      ((s.budget.isZero = true ∧ t = s.withStatus .suspended) ∨ (Steps s ∧ Stepped s t)) := by
  by_cases hrun : s.status = .running
  · refine ⟨hrun, ?_⟩
    by_cases hbud : s.budget.isZero = true
    · simp only [step, loopStep, hrun, hbud, if_true] at h
      injection h with h
      exact .inl ⟨hbud, h.symm⟩
    · have hs : Steps s := ⟨hrun, by simpa using hbud⟩
      obtain ⟨t', h', hst⟩ := step_stepped hs
      rw [h] at h'
      injection h' with h'
      exact .inr ⟨hs, h' ▸ hst⟩
  · rw [step_ended hrun] at h
    cases h

end Sys2Proof.Machine
end

