-- ==== Sys2Proof/Tests/Slice0.lean ====
section
/-! SUPPORT. The model's own tests, and a witness for each statement that has hypotheses. Expected values are those of
spec/95_test_vectors.md (its section in each docstring) or of the rule named, not the model's answers. -/

open Sys2Proof Sys2Proof.Machine

namespace Sys2Proof.Tests

set_option maxRecDepth 8000

/-! ### Helpers -/

/-- The next state of an outcome, if it is one. -/
def after : Host.Outcome State Fault Refusal → Option State
  | .next t => some t
  | _ => none

/-- A Running context of this code under the default configuration, at `pc`, with this stack. -/
def ctx (code : List Byte) (pc : Int) (stack : List Word) : State :=
  { startContext Config.default code [] .infinite with pc := pc, stack := stack }

/-- A context with limits: MEM_LIMIT 32, RETDATA_LIMIT 2, CODE_MAX 4. -/
def limited (code : List Byte) (pc : Int) (stack : List Word) : State :=
  { ctx code pc stack with
    config := { Config.default with memLimit := .finite 32, retdataLimit := .finite 2, codeMax := .finite 4 } }

/-- A stack of `n` ones. -/
def ones (n : Nat) : List Word := List.replicate n 1

theorem ones_length (n : Nat) : (ones n).length = n := List.length_replicate ..

/-- Status, stack and pc after one step. -/
def seen (s : State) : Option (Status × List Word × Int) := (after (step s)).map fun t => (t.status, t.stack, t.pc)

/-- Status and fault record after one step. -/
def record (s : State) : Option (Status × Option FaultRecord) := (after (step s)).map fun t => (t.status, t.fault)

/-- The record `Fault(kind, opcode, pc[, target])` of spec/95. -/
def faultOf (kind : FaultKind) (opcode : Byte) (pc : Int) (target : Option Word := none) :
    Option (Status × Option FaultRecord) :=
  some (.faulted, some { kind := kind, opcode := some opcode, pc := pc, target := target })

/-! ### Well-formed terms -/

/-- An immediate of 256^n does not fit PUSHn's n bytes: one ill-formed term for each check (R99). -/
theorem test_wellFormed_refuses :
    ([.push1 (256 ^ 1), .push2 (256 ^ 2), .push3 (256 ^ 3), .push4 (256 ^ 4), .push5 (256 ^ 5), .push6 (256 ^ 6), .push7
      (256 ^ 7), .push8 (256 ^ 8), .push9 (256 ^ 9), .push10 (256 ^ 10), .push11 (256 ^ 11), .push12 (256 ^ 12),
      .push13 (256 ^ 13), .push14 (256 ^ 14), .push15 (256 ^ 15), .push16 (256 ^ 16), .push17 (256 ^ 17), .push18
      (256 ^ 18), .push19 (256 ^ 19), .push20 (256 ^ 20), .push21 (256 ^ 21), .push22 (256 ^ 22), .push23 (256 ^
      23), .push24 (256 ^ 24), .push25 (256 ^ 25), .push26 (256 ^ 26), .push27 (256 ^ 27), .push28 (256 ^ 28),
      .push29 (256 ^ 29), .push30 (256 ^ 30), .push31 (256 ^ 31)] : List Instr).all (fun i => !i.wellFormed) = true := by decide

/-- 256^n − 1 fits, and 2^256 − 1 fits PUSH32. -/
theorem test_wellFormed_accepts :
    ([.push1 (256 ^ 1 - 1), .push2 (256 ^ 2 - 1), .push16 (256 ^ 16 - 1), .push31 (256 ^ 31 - 1), .push32 (2 ^ 256 - 1),
      .stop, .dup16, .swap16, .ret] :
      List Instr).all Instr.wellFormed = true := by decide

/-! ### Decoding: bytes written out from R91 and the immediates of R151 to R182 -/

/-- The thirteen instructions without a number (R91). -/
theorem test_decode_plain :
    [[0x00], [0x01], [0x02], [0x03], [0x04], [0x50], [0x53], [0x56], [0x57], [0x58], [0x59], [0x5B], [0xF3]].map (decode
      Registry.default) =
    [.instr .stop, .instr .add, .instr .mul, .instr .sub, .instr .div, .instr .pop, .instr .mstore8, .instr .jump,
      .instr .jumpi, .instr .pc, .instr .msize, .instr .jumpdest, .instr .ret] := by decide

/-- DUP1 to DUP16 (R91). -/
theorem test_decode_dup :
    [[0x80], [0x81], [0x82], [0x83], [0x84], [0x85], [0x86], [0x87], [0x88], [0x89], [0x8A], [0x8B], [0x8C], [0x8D],
      [0x8E], [0x8F]].map (decode Registry.default) =
    [.instr .dup1, .instr .dup2, .instr .dup3, .instr .dup4, .instr .dup5, .instr .dup6, .instr .dup7, .instr .dup8,
      .instr .dup9, .instr .dup10, .instr .dup11, .instr .dup12, .instr .dup13, .instr .dup14, .instr .dup15, .instr
      .dup16] := by decide

/-- SWAP1 to SWAP16 (R91). -/
theorem test_decode_swap :
    [[0x90], [0x91], [0x92], [0x93], [0x94], [0x95], [0x96], [0x97], [0x98], [0x99], [0x9A], [0x9B], [0x9C], [0x9D],
      [0x9E], [0x9F]].map (decode Registry.default) =
    [.instr .swap1, .instr .swap2, .instr .swap3, .instr .swap4, .instr .swap5, .instr .swap6, .instr .swap7, .instr
      .swap8, .instr .swap9, .instr .swap10, .instr .swap11, .instr .swap12, .instr .swap13, .instr .swap14, .instr
      .swap15, .instr .swap16] := by decide

/-- PUSH1 to PUSH8 with the immediate 01 02 .. n (R91, R99). -/
theorem test_decode_push1_to_push8 :
    decode Registry.default [0x60, 0x01] = .instr (.push1 0x01) ∧
    decode Registry.default [0x61, 0x01, 0x02] = .instr (.push2 0x0102) ∧
    decode Registry.default [0x62, 0x01, 0x02, 0x03] = .instr (.push3 0x010203) ∧
    decode Registry.default [0x63, 0x01, 0x02, 0x03, 0x04] = .instr (.push4 0x01020304) ∧
    decode Registry.default [0x64, 0x01, 0x02, 0x03, 0x04, 0x05] = .instr (.push5 0x0102030405) ∧
    decode Registry.default [0x65, 0x01, 0x02, 0x03, 0x04, 0x05, 0x06] = .instr (.push6 0x010203040506) ∧
    decode Registry.default [0x66, 0x01, 0x02, 0x03, 0x04, 0x05, 0x06, 0x07] = .instr (.push7 0x01020304050607) ∧
    decode Registry.default [0x67, 0x01, 0x02, 0x03, 0x04, 0x05, 0x06, 0x07, 0x08] = .instr (.push8 0x0102030405060708) := by decide

/-- PUSH9 to PUSH16 with the immediate 01 02 .. n (R91, R99). -/
theorem test_decode_push9_to_push16 :
    decode Registry.default [0x68, 0x01, 0x02, 0x03, 0x04, 0x05, 0x06, 0x07, 0x08, 0x09] = .instr (.push9
      0x010203040506070809) ∧
    decode Registry.default [0x69, 0x01, 0x02, 0x03, 0x04, 0x05, 0x06, 0x07, 0x08, 0x09, 0x0A] = .instr (.push10
      0x0102030405060708090A) ∧
    decode Registry.default [0x6A, 0x01, 0x02, 0x03, 0x04, 0x05, 0x06, 0x07, 0x08, 0x09, 0x0A, 0x0B] = .instr (.push11
      0x0102030405060708090A0B) ∧
    decode Registry.default [0x6B, 0x01, 0x02, 0x03, 0x04, 0x05, 0x06, 0x07, 0x08, 0x09, 0x0A, 0x0B, 0x0C] = .instr
      (.push12 0x0102030405060708090A0B0C) ∧
    decode Registry.default [0x6C, 0x01, 0x02, 0x03, 0x04, 0x05, 0x06, 0x07, 0x08, 0x09, 0x0A, 0x0B, 0x0C, 0x0D] =
      .instr (.push13 0x0102030405060708090A0B0C0D) ∧
    decode Registry.default [0x6D, 0x01, 0x02, 0x03, 0x04, 0x05, 0x06, 0x07, 0x08, 0x09, 0x0A, 0x0B, 0x0C, 0x0D, 0x0E] =
      .instr (.push14 0x0102030405060708090A0B0C0D0E) ∧
    decode Registry.default [0x6E, 0x01, 0x02, 0x03, 0x04, 0x05, 0x06, 0x07, 0x08, 0x09, 0x0A, 0x0B, 0x0C, 0x0D, 0x0E,
      0x0F] = .instr (.push15 0x0102030405060708090A0B0C0D0E0F) ∧
    decode Registry.default [0x6F, 0x01, 0x02, 0x03, 0x04, 0x05, 0x06, 0x07, 0x08, 0x09, 0x0A, 0x0B, 0x0C, 0x0D, 0x0E,
      0x0F, 0x10] = .instr (.push16 0x0102030405060708090A0B0C0D0E0F10) := by decide

/-- PUSH17 to PUSH24 with the immediate 01 02 .. n (R91, R99). -/
theorem test_decode_push17_to_push24 :
    decode Registry.default [0x70, 0x01, 0x02, 0x03, 0x04, 0x05, 0x06, 0x07, 0x08, 0x09, 0x0A, 0x0B, 0x0C, 0x0D, 0x0E,
      0x0F, 0x10, 0x11] = .instr (.push17 0x0102030405060708090A0B0C0D0E0F1011) ∧
    decode Registry.default [0x71, 0x01, 0x02, 0x03, 0x04, 0x05, 0x06, 0x07, 0x08, 0x09, 0x0A, 0x0B, 0x0C, 0x0D, 0x0E,
      0x0F, 0x10, 0x11, 0x12] = .instr (.push18 0x0102030405060708090A0B0C0D0E0F101112) ∧
    decode Registry.default [0x72, 0x01, 0x02, 0x03, 0x04, 0x05, 0x06, 0x07, 0x08, 0x09, 0x0A, 0x0B, 0x0C, 0x0D, 0x0E,
      0x0F, 0x10, 0x11, 0x12, 0x13] = .instr (.push19 0x0102030405060708090A0B0C0D0E0F10111213) ∧
    decode Registry.default [0x73, 0x01, 0x02, 0x03, 0x04, 0x05, 0x06, 0x07, 0x08, 0x09, 0x0A, 0x0B, 0x0C, 0x0D, 0x0E,
      0x0F, 0x10, 0x11, 0x12, 0x13, 0x14] = .instr (.push20 0x0102030405060708090A0B0C0D0E0F1011121314) ∧
    decode Registry.default [0x74, 0x01, 0x02, 0x03, 0x04, 0x05, 0x06, 0x07, 0x08, 0x09, 0x0A, 0x0B, 0x0C, 0x0D, 0x0E,
      0x0F, 0x10, 0x11, 0x12, 0x13, 0x14, 0x15] = .instr (.push21 0x0102030405060708090A0B0C0D0E0F101112131415) ∧
    decode Registry.default [0x75, 0x01, 0x02, 0x03, 0x04, 0x05, 0x06, 0x07, 0x08, 0x09, 0x0A, 0x0B, 0x0C, 0x0D, 0x0E,
      0x0F, 0x10, 0x11, 0x12, 0x13, 0x14, 0x15, 0x16] = .instr (.push22
      0x0102030405060708090A0B0C0D0E0F10111213141516) ∧
    decode Registry.default [0x76, 0x01, 0x02, 0x03, 0x04, 0x05, 0x06, 0x07, 0x08, 0x09, 0x0A, 0x0B, 0x0C, 0x0D, 0x0E,
      0x0F, 0x10, 0x11, 0x12, 0x13, 0x14, 0x15, 0x16, 0x17] = .instr (.push23
      0x0102030405060708090A0B0C0D0E0F1011121314151617) ∧
    decode Registry.default [0x77, 0x01, 0x02, 0x03, 0x04, 0x05, 0x06, 0x07, 0x08, 0x09, 0x0A, 0x0B, 0x0C, 0x0D, 0x0E,
      0x0F, 0x10, 0x11, 0x12, 0x13, 0x14, 0x15, 0x16, 0x17, 0x18] = .instr (.push24
      0x0102030405060708090A0B0C0D0E0F101112131415161718) := by decide

/-- PUSH25 to PUSH32 with the immediate 01 02 .. n (R91, R99). -/
theorem test_decode_push25_to_push32 :
    decode Registry.default [0x78, 0x01, 0x02, 0x03, 0x04, 0x05, 0x06, 0x07, 0x08, 0x09, 0x0A, 0x0B, 0x0C, 0x0D, 0x0E,
      0x0F, 0x10, 0x11, 0x12, 0x13, 0x14, 0x15, 0x16, 0x17, 0x18, 0x19] = .instr (.push25
      0x0102030405060708090A0B0C0D0E0F10111213141516171819) ∧
    decode Registry.default [0x79, 0x01, 0x02, 0x03, 0x04, 0x05, 0x06, 0x07, 0x08, 0x09, 0x0A, 0x0B, 0x0C, 0x0D, 0x0E,
      0x0F, 0x10, 0x11, 0x12, 0x13, 0x14, 0x15, 0x16, 0x17, 0x18, 0x19, 0x1A] = .instr (.push26
      0x0102030405060708090A0B0C0D0E0F101112131415161718191A) ∧
    decode Registry.default [0x7A, 0x01, 0x02, 0x03, 0x04, 0x05, 0x06, 0x07, 0x08, 0x09, 0x0A, 0x0B, 0x0C, 0x0D, 0x0E,
      0x0F, 0x10, 0x11, 0x12, 0x13, 0x14, 0x15, 0x16, 0x17, 0x18, 0x19, 0x1A, 0x1B] = .instr (.push27
      0x0102030405060708090A0B0C0D0E0F101112131415161718191A1B) ∧
    decode Registry.default [0x7B, 0x01, 0x02, 0x03, 0x04, 0x05, 0x06, 0x07, 0x08, 0x09, 0x0A, 0x0B, 0x0C, 0x0D, 0x0E,
      0x0F, 0x10, 0x11, 0x12, 0x13, 0x14, 0x15, 0x16, 0x17, 0x18, 0x19, 0x1A, 0x1B, 0x1C] = .instr (.push28
      0x0102030405060708090A0B0C0D0E0F101112131415161718191A1B1C) ∧
    decode Registry.default [0x7C, 0x01, 0x02, 0x03, 0x04, 0x05, 0x06, 0x07, 0x08, 0x09, 0x0A, 0x0B, 0x0C, 0x0D, 0x0E,
      0x0F, 0x10, 0x11, 0x12, 0x13, 0x14, 0x15, 0x16, 0x17, 0x18, 0x19, 0x1A, 0x1B, 0x1C, 0x1D] = .instr (.push29
      0x0102030405060708090A0B0C0D0E0F101112131415161718191A1B1C1D) ∧
    decode Registry.default [0x7D, 0x01, 0x02, 0x03, 0x04, 0x05, 0x06, 0x07, 0x08, 0x09, 0x0A, 0x0B, 0x0C, 0x0D, 0x0E,
      0x0F, 0x10, 0x11, 0x12, 0x13, 0x14, 0x15, 0x16, 0x17, 0x18, 0x19, 0x1A, 0x1B, 0x1C, 0x1D, 0x1E] = .instr
      (.push30 0x0102030405060708090A0B0C0D0E0F101112131415161718191A1B1C1D1E) ∧
    decode Registry.default [0x7E, 0x01, 0x02, 0x03, 0x04, 0x05, 0x06, 0x07, 0x08, 0x09, 0x0A, 0x0B, 0x0C, 0x0D, 0x0E,
      0x0F, 0x10, 0x11, 0x12, 0x13, 0x14, 0x15, 0x16, 0x17, 0x18, 0x19, 0x1A, 0x1B, 0x1C, 0x1D, 0x1E, 0x1F] = .instr
      (.push31 0x0102030405060708090A0B0C0D0E0F101112131415161718191A1B1C1D1E1F) ∧
    decode Registry.default [0x7F, 0x01, 0x02, 0x03, 0x04, 0x05, 0x06, 0x07, 0x08, 0x09, 0x0A, 0x0B, 0x0C, 0x0D, 0x0E,
      0x0F, 0x10, 0x11, 0x12, 0x13, 0x14, 0x15, 0x16, 0x17, 0x18, 0x19, 0x1A, 0x1B, 0x1C, 0x1D, 0x1E, 0x1F, 0x20] =
      .instr (.push32 0x0102030405060708090A0B0C0D0E0F101112131415161718191A1B1C1D1E1F20) := by decide

/-- Section 2.2: missing immediate bytes count as leading zeros, and section 2.9: unregistered bytes. -/
theorem test_decode_truncated_and_unregistered :
    decode Registry.default [0x61, 0xAB] = .instr (.push2 0xAB) ∧ decode Registry.default [0x60] = .instr (.push1 0) ∧
    decode Registry.default [] = .endOfCode ∧
    ([0x05, 0x10, 0x51, 0x52, 0x54, 0x55, 0x5A, 0x5F, 0xA0, 0xF1, 0xFE, 0xFF] : List Byte).all
      (fun b => decode Registry.default [b] == .unknownOpcode b) = true := by decide

/-- Words numbered as spec/opcode_table.json numbers them: the opcode byte in bits 7..0, the first immediate byte above
it. -/
theorem test_decodeTableWord :
    decodeTableWord 8 0x5B = some .jumpdest ∧ decodeTableWord 8 0xF3 = some .ret ∧
    decodeTableWord 16 0xAB60 = some (.push1 0xAB) ∧ decodeTableWord 24 0x020161 = some (.push2 0x0102) ∧
    decodeTableWord 8 0x7F = some (.push32 0) ∧ decodeTableWord 8 0x5F = none := by decide

/-- Encoding, most significant immediate byte first (R91, R99). -/
theorem test_encode :
    encode Registry.default (.push3 0x010203) = [0x62, 0x01, 0x02, 0x03] ∧
    encode Registry.default .swap16 = [0x9F] ∧ encode Registry.default (.push1 0) = [0x60, 0x00] := by decide

/-! ### The registry -/

/-- The table of R91 passes its check (R92, R97). -/
theorem test_default_registry_wf : Registry.default.wf = true := by decide

/-- MEM_LIMIT must be a multiple of 32 (R10); the check of the registry is the same. -/
theorem test_config_wf :
    Config.default.wf = true ∧ { Config.default with memLimit := .finite 64 }.wf = true ∧
    { Config.default with memLimit := .finite 33 }.wf = false := by
  simp only [Config.wf, Config.default, test_default_registry_wf]; decide

/-- One byte taken twice, and one name taken twice (R97). -/
theorem test_duplicate_opcode :
    Registry.build [.of 0x00 .stop, .of 0x00 .add] = .error .duplicateOpcode ∧
    Registry.build [.of 0x00 .stop, .of 0x01 .stop] = .error .duplicateOpcode ∧
    Registry.build [.of 0x00 .stop, .of 0x01 .add] = .ok { entries := [.of 0x00 .stop, .of 0x01 .add] } := by
  refine ⟨rfl, rfl, rfl⟩

/-- Section 2.10. -/
theorem test_jumpDests :
    jumpDests Registry.default [0x5B] = [0] ∧ jumpDests Registry.default [0x60, 0x5B, 0x5B] = [2] ∧
    jumpDests Registry.default [0x61, 0x5B, 0x5B, 0x5B] = [3] ∧
    jumpDests Registry.default (0x7F :: List.replicate 33 0x5B) = [33] ∧
    jumpDests Registry.default [0x62, 0x5B, 0x5B] = [] ∧ jumpDests Registry.default [0xFE, 0x5B] = [1] ∧
    jumpDests Registry.default [0x5B, 0x5B, 0x60, 0x00, 0x5B] = [0, 1, 4] := by decide

/-! ### One step each -/

/-- Section 2.1, rows 2^256 − 1 and 1, 1 and 2. -/
theorem test_add : seen (ctx [0x01] 0 [1, 2 ^ 256 - 1, 7]) = some (.running, [0, 7], 1) := by decide
theorem test_mul : seen (ctx [0x02] 0 [2, 2 ^ 255]) = some (.running, [0], 1) := by decide
theorem test_sub : seen (ctx [0x03] 0 [2, 1]) = some (.running, [2 ^ 256 - 1], 1) := by decide
theorem test_div : seen (ctx [0x04] 0 [3, 10]) = some (.running, [3], 1) := by decide

/-- Section 2.1: division by zero, and the columns TopLeft. -/
theorem test_div_by_zero : seen (ctx [0x04] 0 [0, 2 ^ 256 - 1]) = some (.running, [0], 1) := by decide
theorem test_topLeft :
    let s := ctx [0x03, 0x04] 0 [3, 10]
    let t : State := { s with config := { s.config with operandOrder := .topLeft } }
    seen t = some (.running, [2 ^ 256 - 7], 1) ∧ seen (t.withPc 1) = some (.running, [0], 2) := by decide

/-- Section 2.1: `60 09 01` gives Fault(StackUnderflow, 0x01, 2). -/
theorem test_add_underflow : record (ctx [0x60, 0x09, 0x01] 2 [9]) = faultOf .stackUnderflow 0x01 2 := by decide

/-- Section 2.2. -/
theorem test_push2 : seen (ctx [0x61, 0x01, 0x00] 0 [5]) = some (.running, [256, 5], 3) := by decide
theorem test_push2_truncated : seen (ctx [0x61, 0xAB] 0 []) = some (.running, [0xAB], 3) := by decide
theorem test_push32 :
    seen (ctx (0x7F :: 0x01 :: List.replicate 31 0x00) 0 []) = some (.running, [2 ^ 248], 33) := by decide

/-- Sections 2.3 to 2.5. -/
theorem test_dup3 : seen (ctx [0x82] 0 [1, 2, 3]) = some (.running, [3, 1, 2, 3], 1) := by decide
theorem test_dup16_underflow : record (ctx [0x8F] 0 (ones 15)) = faultOf .stackUnderflow 0x8F 0 := by decide
theorem test_swap3 : seen (ctx [0x92] 0 [1, 2, 3, 4]) = some (.running, [4, 2, 3, 1], 1) := by decide
theorem test_swap16_underflow : record (ctx [0x9F] 0 (ones 16)) = faultOf .stackUnderflow 0x9F 0 := by decide
theorem test_pop : seen (ctx [0x50] 0 [4, 9]) = some (.running, [9], 1) := by decide
theorem test_pop_underflow : record (ctx [0x50] 0 []) = faultOf .stackUnderflow 0x50 0 := by decide

/-- Section 2.6: value 0x01AB at offset 33. -/
theorem test_mstore8 :
    (after (step (ctx [0x53] 0 [33, 0x01AB]))).map (·.memory) = some { len := 64, cells := [(33, 0xAB)] } := by decide

/-- Section 2.6: MEM_LIMIT = 32 and offset 32. -/
theorem test_mstore8_limit : record (limited [0x53] 0 [32, 1]) = faultOf .memoryLimitExceeded 0x53 0 := by decide

/-- Section 2.6: MSIZE after a store at 64, and at MLEN = 2^256. -/
theorem test_msize :
    seen { ctx [0x59] 0 [] with memory := { len := 96, cells := [(64, 1)] } } = some (.running, [96], 1) := by decide
theorem test_msize_invalid_item :
    record { ctx [0x59] 0 [] with memory := { len := 2 ^ 256, cells := [] } } = faultOf .invalidStackItem 0x59 0 := by
  decide

/-- Section 2.7. -/
theorem test_jump : seen (ctx [0x60, 0x04, 0x56, 0xFE, 0x5B, 0x00] 2 [4]) = some (.running, [], 4) := by decide
theorem test_jump_into_operand :
    record (ctx [0x60, 0x5B, 0x60, 0x01, 0x56] 4 [1, 0x5B]) =
      faultOf .invalidJumpDestination 0x56 4 (some 1) := by decide
theorem test_jumpi_untaken : seen (ctx [0x60, 0x00, 0x60, 0x63, 0x57] 4 [0x63, 0]) = some (.running, [], 5) := by decide
theorem test_jumpi_taken :
    seen (ctx [0x60, 0x01, 0x60, 0x06, 0x57, 0xFE, 0x5B, 0x00] 4 [6, 1]) = some (.running, [], 6) := by decide
theorem test_jumpdest : seen (ctx [0x5B, 0x00] 0 [3]) = some (.running, [3], 1) := by decide
theorem test_pc : seen (ctx [0x60, 0x00, 0x58] 2 [0]) = some (.running, [2, 0], 3) := by decide

/-- Section 2.8: STOP, the implicit STOP, and P5's RETURN. -/
theorem test_stop : seen (ctx [0x00] 0 [1]) = some (.stopped, [1], 1) := by decide
theorem test_implicit_stop : seen (ctx [0x60, 0x07] 2 [7]) = some (.stopped, [7], 2) := by decide
theorem test_return :
    (after (step { ctx [0xF3] 0 [0x20, 2] with memory := { len := 64, cells := [(33, 0xAA)] } })).map
      (fun t => (t.status, t.returnData.bytes, t.memory.len)) = some (.stopped, [0x00, 0xAA], 64) := by decide
theorem test_return_limit : record (limited [0xF3] 0 [0, 3]) = faultOf .returnDataLimitExceeded 0xF3 0 := by decide

/-- Section 2.9. -/
theorem test_unknown_opcode : record (ctx [0x60, 0x01, 0xFE] 2 [1]) = faultOf .unknownOpcode 0xFE 2 := by decide
theorem test_no_budget :
    seen { ctx [0x60, 0x01] 0 [] with budget := .finite 0 } = some (.suspended, [], 0) := by decide

/-- R70, R71: past the end of CALLDATA a byte reads 0, and a word is big-endian. -/
theorem test_calldata :
    (match calldataWord 0 { ctx [] 0 [] with calldata := [0x01, 0x02] } with
      | .ok v _ => v == 0x0102 <<< 240
      | .raise _ _ _ => false) = true := by decide

/-- The word placed by `withFetchWord` runs as the first instruction after reset. -/
theorem test_withFetchWord :
    seen (State.reset.withFetchWord 16 0xAB60) = some (.running, [0xAB], 2) ∧
    seen (State.reset.withFetchWord 8 0x5B) = some (.running, [], 1) := by decide

/-! ### Witnesses: states and operands that meet the hypotheses of the statements, clause by clause -/

theorem steps_ctx (code : List Byte) (pc : Int) (stack : List Word) : Steps (ctx code pc stack) := ⟨rfl, rfl⟩

theorem ctx_registry_wf (code : List Byte) (pc : Int) (stack : List Word) :
    (ctx code pc stack).config.registry.wf = true := test_default_registry_wf

/-- A context in the middle of a run: `60 01 50`, pc at the POP, one byte of memory stored. -/
def midRun : State := { ctx [0x60, 0x01, 0x50] 2 [1] with memory := { len := 32, cells := [(31, 1)] } }

theorem midRun_contextInv : ContextInv midRun where
  configWf := test_config_wf.1
  codeLimit := by decide
  depth := by decide
  memoryWf := by decide
  memoryGranule := by decide
  memoryLimit := by decide
  memoryBound := by decide
  returnUnset _ := rfl
  returnWf := by decide
  returnLimit := by decide
  pcNonneg := by decide
  pcBound := by decide
  jdsOfCode := rfl

theorem midRun_runInv : RunInv midRun :=
  ⟨⟨by decide, by decide, nofun, nofun, nofun, nofun⟩, fun _ => midRun_contextInv⟩

theorem midRun_pcOnBoundary : PcOnBoundary midRun :=
  fun _ => ⟨by decide, Boundary.next 0 0x60 .zero rfl⟩

theorem witness_UnregisteredBytesFault :
    (∃ (s : State) (b : Byte), s.config.registry = Registry.default ∧ Steps s ∧ 0 ≤ s.pc ∧ s.code[s.pc.toNat]? = some b ∧
      Registry.default.slot b = .invalid) ∧
    ([0x05, 0x4F, 0x5C, 0x5F, 0xA0, 0xF2, 0xF4, 0xFF] : List Byte).all
      (fun b => Registry.default.slot b == .invalid) = true :=
  ⟨⟨ctx [0xFE] 0 [], 0xFE, rfl, steps_ctx .., by decide, rfl, by decide⟩, by decide⟩

theorem witness_DuplicateOpcodeCheck :
    (∃ es : List Registration, ¬ ((es.map (·.byte)).Nodup ∧ (es.map (·.name)).Nodup)) ∧
    (∃ es : List Registration, (es.map (·.byte)).Nodup ∧ (es.map (·.name)).Nodup ∧ es ≠ []) ∧
    (∃ c : Config, ¬ ((c.registry.entries.map (·.byte)).Nodup ∧ (c.registry.entries.map (·.name)).Nodup)) :=
  ⟨⟨[.of 0 .stop, .of 0 .add], by decide⟩, ⟨[.of 0 .stop, .of 1 .add], by decide⟩,
    ⟨{ Config.default with registry := { entries := [.of 0 .stop, .of 1 .stop] } }, by decide⟩⟩

theorem witness_DecodeOfEncode :
    Registry.default.wf = true ∧ (Instr.push1 255).wellFormed = true ∧ (Instr.push32 (2 ^ 256 - 1)).wellFormed = true :=
  ⟨test_default_registry_wf, by decide, by decide⟩

theorem witness_FirstByteGivesLength :
    Registry.default.wf = true ∧ decode Registry.default (0x00 :: []) = .instr .stop ∧
    decode Registry.default (0x60 :: [5]) = .instr (.push1 5) ∧
    ([5, 9] : List Byte).take ((Instr.push1 5).length - 1) = [5].take ((Instr.push1 5).length - 1) ∧
    decode Registry.default (0x7F :: []) = .instr (.push32 0) :=
  ⟨test_default_registry_wf, by decide, by decide, by decide, by decide⟩

theorem witness_ImmediateIsLeftPadded :
    (∃ (code : List Byte) (p n m : Nat), 1 ≤ n ∧ n ≤ 32 ∧ m = min n (code.length - p) ∧ m = 0) ∧
    (∃ (code : List Byte) (p n m : Nat), 1 ≤ n ∧ n ≤ 32 ∧ m = min n (code.length - p) ∧ 0 < m ∧ m < n) ∧
    (∃ (code : List Byte) (p n m : Nat), 1 ≤ n ∧ n ≤ 32 ∧ m = min n (code.length - p) ∧ m = 32) :=
  ⟨⟨[0x60], 1, 1, 0, by decide⟩, ⟨[0x61, 0xAB], 1, 2, 1, by decide⟩, ⟨List.replicate 33 0x7F, 1, 32, 32, by decide⟩⟩

theorem witness_JumpDestMembers :
    0 ∈ jumpDests Registry.default [0x5B] ∧
    (∃ (code : List Byte) (b : Byte), Boundary Registry.default code 0 ∧ code[0]? = some b ∧
      0 + Registry.default.operandWidth b = 32 ∧ code[32]? = some 0x5B) ∧
    (∃ s t : State, step s = .next t ∧ t.status ≠ .faulted) :=
  ⟨by decide, ⟨0x7F :: List.replicate 33 0x5B, 0x7F, .zero, rfl, by decide, by decide⟩,
    ⟨midRun, _, rfl, by decide⟩⟩

theorem witness_StepKeepsPcOnBoundary : ∃ s t : State, RunInv s ∧ PcOnBoundary s ∧ step s = .next t :=
  ⟨midRun, _, midRun_runInv, midRun_pcOnBoundary, rfl⟩

theorem witness_StepRunsDecodedInstruction :
    ∃ (s : State) (i : Instr), Steps s ∧ 0 ≤ s.pc ∧ decode s.config.registry (s.code.drop s.pc.toNat) = .instr i :=
  ⟨ctx [0x61, 0x01, 0x02] 0 [], .push2 0x0102, steps_ctx .., by decide, by decide⟩

theorem witness_StepFollowsTheLoop :
    (∃ s : State, Steps s ∧ s.pc = -1) ∧ (∃ s : State, Steps s ∧ (s.code.length : Int) = s.pc) ∧
    (∃ (s : State) (op : Byte), Steps s ∧ s.pc = 0 ∧ s.code[s.pc.toNat]? = some op ∧
      s.config.registry.slot op = .invalid) ∧
    (∃ (s : State) (op : Byte) (k : Op), Steps s ∧ s.pc + 1 = s.code.length ∧ s.code[s.pc.toNat]? = some op ∧
      s.config.registry.slot op = .op k) :=
  ⟨⟨ctx [] (-1) [], steps_ctx .., rfl⟩, ⟨ctx [0x00] 1 [], steps_ctx .., rfl⟩,
    ⟨ctx [0xFE] 0 [], 0xFE, steps_ctx .., rfl, rfl, by decide⟩,
    ⟨ctx [0x00, 0x01] 1 [], 0x01, .add, steps_ctx .., rfl, rfl, by decide⟩⟩

theorem witness_BudgetCheckedFirst :
    (∃ s : State, s.status = .running ∧ s.budget = .finite 0) ∧
    (∃ s t : State, s.status = .running ∧ s.budget = .finite (0 + 1) ∧ step s = .next t ∧ t.status ≠ .faulted) ∧
    (∃ s t : State, s.status = .running ∧ s.budget = .infinite ∧ step s = .next t ∧ t.status ≠ .faulted) ∧
    (∃ s : State, s.status ≠ .running) :=
  ⟨⟨{ midRun with budget := .finite 0 }, rfl, rfl⟩, ⟨{ midRun with budget := .finite 1 }, _, rfl, rfl, rfl, by decide⟩,
    ⟨midRun, _, rfl, rfl, rfl, by decide⟩, ⟨{ midRun with status := .stopped }, by decide⟩⟩

theorem witness_ImplicitStopEndsTheRun : ∃ s : State, Steps s ∧ (s.code.length : Int) ≤ s.pc :=
  ⟨ctx [0x60] 2 [0], steps_ctx .., by decide⟩

theorem witness_FiniteBudgetRunEnds :
    (∃ s : State, s.status = .running ∧ s.budget = .finite 0) ∧ (∃ s : State, s.status = .running ∧ s.budget = .finite 3) :=
  ⟨⟨{ midRun with budget := .finite 0 }, rfl, rfl⟩, ⟨{ midRun with budget := .finite 3 }, rfl, rfl⟩⟩

theorem witness_SuspendedRunResumes :
    (∃ s : State, s.status = .running ∧ s.budget = .finite 0) ∧ (∃ s : State, s.status ≠ .suspended) :=
  ⟨⟨{ midRun with budget := .finite 0 }, rfl, rfl⟩, ⟨midRun, by decide⟩⟩

theorem witness_StartOfRunState :
    (∃ (c : Config) (code : List Byte), c.wf = true ∧ c.codeMax.exceededBy code.length = true) ∧
    (∃ (c : Config) (code : List Byte), c.wf = true ∧ c.codeMax = .finite code.length ∧
      c.codeMax.exceededBy code.length = false) :=
  ⟨⟨{ Config.default with codeMax := .finite 1 }, [0x60, 0x01], test_config_wf.1, by decide⟩,
    ⟨{ Config.default with codeMax := .finite 1 }, [0x00], test_config_wf.1, rfl, by decide⟩⟩

theorem witness_RunOutputs :
    (∃ s : State, s.status = .running) ∧ (∃ s : State, s.status = .stopped) ∧ (∃ s : State, s.status = .suspended) ∧
    (∃ (s : State) (r : FaultRecord), s.status = .faulted ∧ s.fault = some r) :=
  ⟨⟨midRun, rfl⟩, ⟨{ midRun with status := .stopped }, rfl⟩, ⟨{ midRun with status := .suspended }, rfl⟩,
    ⟨midRun.takeFault .stackUnderflow (some 0x50) 2 none, _, rfl, rfl⟩⟩

theorem witness_PushPrimitive :
    (∃ s : State, s.stack.length = 1024 ∧ s.stack.length + 1 > 1024) ∧
    (∃ (v : Int) (s : State), s.stack.length + 1 = 1024 ∧ s.stack.length + 1 ≤ 1024 ∧ v = -1 ∧ (v < 0 ∨ v > 2 ^ 256 - 1)) ∧
    (∃ v : Int, v = 2 ^ 256 ∧ (v < 0 ∨ v > 2 ^ 256 - 1)) ∧
    (∃ (v : Int) (s : State), s.stack.length + 1 ≤ 1024 ∧ v = 2 ^ 256 - 1 ∧ 0 ≤ v ∧ v ≤ 2 ^ 256 - 1) :=
  ⟨⟨ctx [] 0 (ones 1024), by simp [ctx, ones]⟩, ⟨-1, ctx [] 0 (ones 1023), by simp [ctx, ones]⟩,
    ⟨2 ^ 256, by decide⟩, ⟨2 ^ 256 - 1, ctx [] 0 [], by decide⟩⟩

theorem witness_PopPeekSwapPrimitives :
    (∃ s : State, s.stack = []) ∧ (∃ (s : State) (w : Word) (rest : List Word), s.stack = w :: rest) ∧
    (∃ (n : Nat) (s : State), s.stack.length ≤ n) ∧ (∃ (n : Nat) (s : State), n < s.stack.length) ∧
    (∃ (n : Nat) (s : State), 1 ≤ n ∧ s.stack.length < n + 1) ∧
    (∃ (n : Nat) (s : State), 1 ≤ n ∧ n + 1 ≤ s.stack.length) :=
  ⟨⟨ctx [] 0 [], rfl⟩, ⟨ctx [] 0 [4, 9], 4, [9], rfl⟩, ⟨2, ctx [] 0 [4, 9], by decide⟩, ⟨1, ctx [] 0 [4, 9], by decide⟩,
    ⟨2, ctx [] 0 [4, 9], by decide⟩, ⟨1, ctx [] 0 [4, 9], by decide⟩⟩

theorem witness_StackDiscipline : ∃ (ws : List Word) (s : State), s.stack.length + ws.length = 1024 ∧ ws ≠ [] :=
  ⟨[1, 2, 3], ctx [] 0 (ones 1021), by simp [ctx, ones]⟩

theorem witness_ExpandLenIsNextBoundary :
    (∃ k m : Nat, 32 ∣ m ∧ k < m) ∧ (∃ k q : Nat, 32 * q < k + 1 + 32 ∧ k + 1 = 32 * q) ∧
    (∃ k q : Nat, 32 * q + 1 = k + 1 + 32 ∧ k + 1 ≤ 32 * q) :=
  ⟨⟨31, 32, by decide⟩, ⟨31, 1, by decide⟩, ⟨32, 2, by decide⟩⟩

theorem witness_MemWriteStoresOneByte :
    (∃ k : Int, k = -1 ∧ k < 0) ∧ (∃ k v : Int, k = 0 ∧ 0 ≤ k ∧ v = 256 ∧ (v < 0 ∨ 255 < v)) ∧
    (∃ k v : Int, 0 ≤ k ∧ v = -1 ∧ (v < 0 ∨ 255 < v)) ∧
    (∃ (k : Nat) (s : State), expandLen k > s.memory.len ∧ s.config.memLimit.exceededBy (expandLen k) = true) ∧
    (∃ (k : Nat) (s : State), k = 31 ∧ s.memory.wf = true ∧ expandLen k ≤ s.memory.len ∧ k < s.memory.len ∧
      32 ∣ s.memory.len) ∧
    (∃ (k : Nat) (s : State), k = 2 ^ 256 - 1 ∧ s.memory.wf = true ∧ s.memory.len < expandLen k ∧
      s.config.memLimit.exceededBy (expandLen k) = false) :=
  ⟨⟨-1, by decide⟩, ⟨0, 256, by decide⟩, ⟨0, -1, by decide⟩, ⟨32, limited [] 0 [], by decide⟩, ⟨31, midRun, by decide⟩,
    ⟨2 ^ 256 - 1, midRun, by decide⟩⟩

theorem witness_LoadAndRangeRead :
    (∃ o : Int, o = -1 ∧ o < 0) ∧ (∃ (k : Nat) (s : State), k = 32 ∧ s.memory.len ≤ k) ∧
    (∃ (k : Nat) (s : State), k = 31 ∧ k < s.memory.len) ∧ (∃ i n : Nat, i < n) :=
  ⟨⟨-1, by decide⟩, ⟨32, midRun, by decide⟩, ⟨31, midRun, by decide⟩, ⟨0, 1, by decide⟩⟩

theorem witness_MemoryLengthIsTheMaximum :
    (∃ s t : State, step s = .next t ∧ t.status ≠ .faulted ∧ 32 ∣ s.memory.len ∧ s.memory.len < t.memory.len) ∧
    (∃ s : State, s.config.memLimit = .infinite ∧ s.memory.len = 0) :=
  ⟨⟨ctx [0x53] 0 [0, 1], _, rfl, by decide, by decide, by decide⟩, ⟨ctx [] 0 [], rfl, rfl⟩⟩

theorem witness_CalldataReads :
    (∃ o : Int, o = -1 ∧ o < 0) ∧ (∃ (k : Nat) (s : State), k = 2 ∧ s.calldata.length ≤ k) ∧
    (∃ (k : Nat) (s : State), k = 1 ∧ k < s.calldata.length) ∧ (∃ s t : State, step s = .next t ∧ t.status ≠ .faulted) :=
  ⟨⟨-1, by decide⟩, ⟨2, { midRun with calldata := [1, 2] }, by decide⟩, ⟨1, { midRun with calldata := [1, 2] }, by decide⟩,
    ⟨midRun, _, rfl, by decide⟩⟩

/-- Two operands on a full stack, and one operand; for the statements about ADD, SUB, MUL and DIV. -/
theorem witness_binary_operations :
    (∃ (s : State) (a b : Word) (rest : List Word), s.stack = a :: b :: rest ∧ s.stack.length = 1024) ∧
    (∃ s : State, s.stack.length = 1 ∧ s.stack.length < 2) ∧ (∃ s : State, s.stack.length = 0 ∧ s.stack.length < 2) :=
  ⟨⟨ctx [] 0 (5 :: 3 :: ones 1022), 5, 3, ones 1022, rfl, by simp [ctx, ones]⟩, ⟨ctx [] 0 [9], by decide⟩,
    ⟨ctx [] 0 [], by decide⟩⟩

theorem witness_AddResult : ∃ (s : State) (a b : Word) (rest : List Word), s.stack = a :: b :: rest ∧
    s.stack.length ≤ 1024 ∧ b.toNat + a.toNat ≥ 2 ^ 256 :=
  ⟨ctx [0x01] 1 [1, 2 ^ 256 - 1], 1, 2 ^ 256 - 1, [], by decide⟩

theorem witness_SubResult :
    (∃ (s : State) (a b : Word) (rest : List Word), s.stack = a :: b :: rest ∧ s.stack.length ≤ 1024 ∧
      s.config.operandOrder = .deepLeft ∧ b.toNat < a.toNat) ∧
    (∃ (s : State) (a b : Word) (rest : List Word), s.stack = a :: b :: rest ∧ s.stack.length ≤ 1024 ∧
      s.config.operandOrder = .topLeft) :=
  ⟨⟨ctx [0x03] 1 [2, 1], 2, 1, [], by decide⟩,
    ⟨{ ctx [0x03] 1 [2, 1] with config := { Config.default with operandOrder := .topLeft } }, 2, 1, [], by decide⟩⟩

theorem witness_MulResult : ∃ (s : State) (a b : Word) (rest : List Word), s.stack = a :: b :: rest ∧
    s.stack.length ≤ 1024 ∧ b.toNat * a.toNat ≥ 2 ^ 256 :=
  ⟨ctx [0x02] 1 [2, 2 ^ 255], 2, 2 ^ 255, [], by decide⟩

theorem witness_DivResult :
    (∃ (s : State) (a b : Word) (rest : List Word), s.stack = a :: b :: rest ∧ s.stack.length ≤ 1024 ∧
      s.config.operandOrder = .deepLeft ∧ a = 0) ∧
    (∃ (s : State) (a b : Word) (rest : List Word), s.stack = a :: b :: rest ∧ s.stack.length ≤ 1024 ∧
      s.config.operandOrder = .topLeft ∧ b ≠ 0) :=
  ⟨⟨ctx [0x04] 1 [0, 7], 0, 7, [], by decide⟩,
    ⟨{ ctx [0x04] 1 [7, 2] with config := { Config.default with operandOrder := .topLeft } }, 7, 2, [], by decide⟩⟩

theorem witness_PushResult :
    (∃ s : State, s.stack.length = 1023 ∧ s.stack.length < 1024) ∧ (∃ s : State, s.stack.length = 1024 ∧ 1024 ≤ s.stack.length) :=
  ⟨⟨ctx [] 0 (ones 1023), by simp [ctx, ones]⟩, ⟨ctx [] 0 (ones 1024), by simp [ctx, ones]⟩⟩

theorem witness_PushStep :
    (∃ (s : State) (op : Byte) (n : Fin 32), s.config.registry.wf = true ∧ Steps s ∧ s.stopped = false ∧ 0 ≤ s.pc ∧
      s.code[s.pc.toNat]? = some op ∧ s.config.registry.slot op = .op (.push n) ∧ s.stack.length < 1024) ∧
    (∃ (s : State) (op : Byte) (n : Fin 32), s.config.registry.wf = true ∧ Steps s ∧ s.stopped = false ∧ 0 ≤ s.pc ∧
      s.code[s.pc.toNat]? = some op ∧ s.config.registry.slot op = .op (.push n) ∧ 1024 ≤ s.stack.length) :=
  ⟨⟨ctx [0x61, 0xAB] 0 [], 0x61, 1, ctx_registry_wf .., steps_ctx .., rfl, by decide, rfl, by decide, by decide⟩,
    ⟨ctx [0x60, 0x01] 0 (ones 1024), 0x60, 0, ctx_registry_wf .., steps_ctx .., rfl, Int.le_refl 0, rfl, by decide,
      Nat.le_of_eq (ones_length 1024).symm⟩⟩

theorem witness_DupResult :
    (∃ (n : Fin 16) (s : State), n = 15 ∧ n.val < s.stack.length ∧ s.stack.length < 1024) ∧
    (∃ (n : Fin 16) (s : State), n = 15 ∧ s.stack.length = 15 ∧ s.stack.length < n.val + 1) ∧
    (∃ s : State, s.stack.length = 1024) :=
  ⟨⟨15, ctx [] 0 (ones 16), by decide⟩, ⟨15, ctx [] 0 (ones 15), by decide⟩, ⟨ctx [] 0 (ones 1024), ones_length 1024⟩⟩

theorem witness_SwapResult :
    (∃ (n : Fin 16) (s : State), n = 15 ∧ n.val + 2 = s.stack.length) ∧
    (∃ (n : Fin 16) (s : State), n = 15 ∧ s.stack.length = 16 ∧ s.stack.length < n.val + 2) :=
  ⟨⟨15, ctx [] 0 (ones 17), by decide⟩, ⟨15, ctx [] 0 (ones 16), by decide⟩⟩

theorem witness_PopResult :
    (∃ (s : State) (w : Word) (rest : List Word), s.stack = w :: rest) ∧ (∃ s : State, s.stack = []) :=
  ⟨⟨ctx [0x50] 1 [4, 9], 4, [9], rfl⟩, ⟨ctx [0x50] 1 [], rfl⟩⟩

theorem witness_Mstore8Result :
    (∃ (s : State) (off val : Word) (rest : List Word), s.stack = off :: val :: rest ∧ s.memory.wf = true ∧
      expandLen off.toNat ≤ s.memory.len) ∧
    (∃ (s : State) (off val : Word) (rest : List Word), s.stack = off :: val :: rest ∧ s.memory.wf = true ∧
      s.memory.len < expandLen off.toNat ∧ s.config.memLimit.exceededBy (expandLen off.toNat) = false) ∧
    (∃ s : State, s.stack.length = 1 ∧ s.stack.length < 2) ∧
    (∃ (s : State) (off val : Word) (rest : List Word), s.stack = off :: val :: rest ∧
      s.memory.len < expandLen off.toNat ∧ s.config.memLimit.exceededBy (expandLen off.toNat) = true) ∧
    (∃ s : State, s.stack = []) :=
  ⟨⟨{ midRun with stack := [31, 5] }, 31, 5, [], by decide⟩, ⟨{ midRun with stack := [32, 5] }, 32, 5, [], by decide⟩,
    ⟨midRun, by decide⟩, ⟨limited [0x53] 1 [32, 1], 32, 1, [], by decide⟩, ⟨ctx [0x53] 1 [], rfl⟩⟩

theorem witness_MsizeResult :
    (∃ s : State, s.stack.length < 1024 ∧ s.memory.len = 2 ^ 256 - 32 ∧ s.memory.len < 2 ^ 256) ∧
    (∃ s : State, s.stack.length = 1024) ∧ (∃ s : State, s.stack.length < 1024 ∧ s.memory.len = 2 ^ 256) :=
  ⟨⟨{ ctx [0x59] 1 [] with memory := { len := 2 ^ 256 - 32, cells := [] } }, by decide⟩,
    ⟨ctx [0x59] 1 (ones 1024), ones_length 1024⟩,
    ⟨{ ctx [0x59] 1 [] with memory := { len := 2 ^ 256, cells := [] } }, by decide⟩⟩

theorem witness_JumpResult :
    (∃ (s : State) (t : Word) (rest : List Word), s.stack = t :: rest ∧ t.toNat ∈ s.jds) ∧
    (∃ (s : State) (t : Word) (rest : List Word), s.stack = t :: rest ∧ t.toNat ∉ s.jds) ∧ (∃ s : State, s.stack = []) :=
  ⟨⟨ctx [0x5B, 0x56] 2 [0], 0, [], by decide⟩, ⟨ctx [0x5B, 0x56] 2 [1], 1, [], by decide⟩, ⟨ctx [0x56] 1 [], rfl⟩⟩

theorem witness_JumpiResult :
    (∃ (s : State) (t : Word) (rest : List Word), s.stack = t :: 0 :: rest) ∧
    (∃ (s : State) (t c : Word) (rest : List Word), s.stack = t :: c :: rest ∧ c ≠ 0 ∧ t.toNat ∈ s.jds) ∧
    (∃ (s : State) (t c : Word) (rest : List Word), s.stack = t :: c :: rest ∧ c ≠ 0 ∧ t.toNat ∉ s.jds) ∧
    (∃ s : State, s.stack.length = 1 ∧ s.stack.length < 2) :=
  ⟨⟨ctx [0x57] 1 [0x63, 0], 0x63, [], rfl⟩, ⟨ctx [0x5B, 0x57] 2 [0, 1], 0, 1, [], by decide⟩,
    ⟨ctx [0x5B, 0x57] 2 [1, 1], 1, 1, [], by decide⟩, ⟨ctx [0x57] 1 [6], by decide⟩⟩

theorem witness_PcResult :
    (∃ (s : State) (opc : Nat), s.pc = opc + 1 ∧ opc = 0 ∧ opc < 2 ^ 256 ∧ s.stack.length < 1024) ∧
    (∃ s : State, s.stack.length = 1024) :=
  ⟨⟨ctx [0x58] 1 [], 0, by decide⟩, ⟨ctx [0x58] 1 (ones 1024), ones_length 1024⟩⟩

theorem witness_StopResult :
    (∃ (s : State) (op : Byte), Steps s ∧ 0 ≤ s.pc ∧ s.code[s.pc.toNat]? = some op ∧
      s.config.registry.slot op = .op .stop) ∧ (∃ s : State, s.status = .stopped) :=
  ⟨⟨ctx [0x00] 0 [1], 0x00, steps_ctx .., by decide, rfl, by decide⟩, ⟨{ midRun with status := .stopped }, rfl⟩⟩

theorem witness_ReturnResult :
    (∃ (s : State) (off len : Word) (rest : List Word), s.stack = off :: len :: rest ∧ len = 2 ∧
      s.config.retdataLimit.exceededBy len.toNat = false) ∧
    (∃ (m : Memory) (k : Nat), m.len = k ∧ m.len ≤ k) ∧
    (∃ (s : State) (off len : Word) (rest : List Word), s.stack = off :: len :: rest ∧ len = 3 ∧
      s.config.retdataLimit.exceededBy len.toNat = true) ∧
    (∃ s : State, s.stack.length = 1 ∧ s.stack.length < 2) :=
  ⟨⟨limited [0xF3] 1 [0, 2], 0, 2, [], by decide⟩, ⟨Memory.empty, 0, by decide⟩, ⟨limited [0xF3] 1 [0, 3], 0, 3, [], by decide⟩,
    ⟨ctx [0xF3] 1 [1], by decide⟩⟩

/-- An instruction of each shape runs: a stack operation, a PUSH, a jump. -/
theorem witness_FrameOfStackAndControl :
    (∃ (i : Instr) (s t : State), i ≠ .stop ∧ i ≠ .ret ∧ i ≠ .mstore8 ∧ exec i s = .next t ∧ t.status ≠ .faulted ∧
      i ≠ .jump ∧ i ≠ .jumpi ∧ i.op.immWidth = 0) ∧
    (∃ t, exec (.push2 5) (ctx [] 1 []) = .next t ∧ t.status ≠ .faulted) ∧
    (∃ t, exec .jump (ctx [0x5B, 0x56] 2 [0]) = .next t ∧ t.status ≠ .faulted) :=
  ⟨⟨.add, ctx [0x01] 1 [1, 2], _, by decide, by decide, by decide, rfl, by decide, by decide, by decide, by decide⟩,
    ⟨_, rfl, by decide⟩, ⟨_, rfl, by decide⟩⟩

theorem witness_FrameOfMstore8 :
    ∃ (s t s1 : State) (off : Word) (k : Nat), s.memory.wf = true ∧ exec .mstore8 s = .next t ∧ t.status ≠ .faulted ∧
      pop s = .ok off s1 ∧ k ≠ off.toNat :=
  ⟨{ midRun with stack := [30, 5] }, _, _, 30, 31, by decide, rfl, by decide, rfl, by decide⟩

theorem witness_FrameOfTermination :
    (∃ s t : State, exec .stop s = .next t ∧ t.status ≠ .faulted) ∧
    (∃ s t : State, exec .ret s = .next t ∧ t.status ≠ .faulted) :=
  ⟨⟨midRun, _, rfl, by decide⟩, ⟨{ midRun with stack := [30, 2, 7] }, _, rfl, by decide⟩⟩

theorem witness_StepKeepsRunInvariant : ∃ s t : State, RunInv s ∧ step s = .next t :=
  ⟨midRun, _, midRun_runInv, rfl⟩

theorem witness_StartAndResumeMeetRunInvariant :
    (∃ s : State, startRun Config.default [0x00] none .infinite = .next s) ∧
    (∃ (s t : State) (budget : Bound), RunInv s ∧ resume budget s = .next t) := by
  refine ⟨⟨startContext Config.default [0x00] [] .infinite, ?_⟩,
    ⟨{ midRun with budget := .finite 0, status := .suspended }, _, .finite 5, ?_, rfl⟩⟩
  · simp only [startRun, test_config_wf.1]; rfl
  · exact ⟨⟨by decide, by decide, nofun, nofun, nofun, nofun⟩, fun _ => { midRun_contextInv with }⟩

theorem witness_StoppedFlagIsMonotonic :
    (∃ s t : State, step s = .next t ∧ s.stopped = true) ∧
    (∃ s t : State, step s = .next t ∧ s.stopped = false ∧ t.stopped = true) :=
  ⟨⟨{ midRun with stopped := true }, _, rfl, rfl⟩, ⟨ctx [0x00] 0 [], _, rfl, rfl, rfl⟩⟩

theorem witness_ReadOnlyStateIsConstant : ∃ s t : State, step s = .next t ∧ t.status ≠ .faulted :=
  ⟨midRun, _, rfl, by decide⟩

/-- A fault of each shape: at a negative pc, with a target, and without one. -/
theorem witness_FaultRecordOfAStep :
    ∀ s ∈ [ctx [] (-1) [], ctx [0x60, 0x00, 0x56] 2 [0], ctx [0x50] 0 []],
      s.config.registry.wf = true ∧ s.status = .running ∧ ∃ t, step s = .next t ∧ t.status = .faulted := by
  intro s hs
  simp only [List.mem_cons, List.not_mem_nil, or_false] at hs
  rcases hs with rfl | rfl | rfl
  · exact ⟨ctx_registry_wf .., rfl, _, rfl, rfl⟩
  · exact ⟨ctx_registry_wf .., rfl, _, rfl, rfl⟩
  · exact ⟨ctx_registry_wf .., rfl, _, rfl, rfl⟩

theorem witness_StatusFollowsTheOutcome : ∃ s : State, s.status = .running ∧ s.stopped = false ∧ s.fault = none :=
  ⟨midRun, rfl, rfl, rfl⟩

theorem witness_CalldataIsUnobservable : ∃ s t : State, step s = .next t ∧ t.status ≠ .faulted :=
  ⟨{ midRun with calldata := [1] }, _, rfl, by decide⟩

theorem witness_OnlyJumpsTransferControl :
    (∃ (s t : State) (i : Instr), s.config.registry.wf = true ∧ Steps s ∧ 0 ≤ s.pc ∧
      decode s.config.registry (s.code.drop s.pc.toNat) = .instr i ∧ step s = .next t ∧ t.status ≠ .faulted ∧
      i ≠ .jump) ∧
    (∃ s t : State, s.config.registry.wf = true ∧ Steps s ∧ 0 ≤ s.pc ∧
      decode s.config.registry (s.code.drop s.pc.toNat) = .instr .jump ∧ step s = .next t ∧ t.status ≠ .faulted) :=
  ⟨⟨midRun, _, .pop, test_default_registry_wf, ⟨rfl, rfl⟩, by decide, by decide, rfl, by decide, by decide⟩,
    ⟨ctx [0x5B, 0x56] 1 [0], _, ctx_registry_wf .., steps_ctx .., by decide, by decide, rfl, by decide⟩⟩

end Sys2Proof.Tests
end

section
/-! SUPPORT. Facts about limits, jump destinations, completed instructions and the last line of the loop that the
statements about the state share. -/

namespace Sys2Proof

/-! ### Configuration and limits -/

theorem Config.registry_wf {c : Config} (h : c.wf = true) : c.registry.wf = true := by
  simp only [Config.wf, Bool.and_eq_true] at h
  exact h.1

@[simp] theorem Bound.exceededBy_zero (l : Bound) : l.exceededBy 0 = false := by
  cases l with
  | finite n => simp [Bound.exceededBy]
  | infinite => rfl

/-- Growing a length keeps it within a limit when the growth itself passed the check (R62). -/
theorem Bound.exceededBy_max {l : Bound} {a b : Nat} (ha : l.exceededBy a = false)
    (hb : b ≤ a ∨ l.exceededBy b = false) : l.exceededBy (max a b) = false := by
  rcases hb with hb | hb
  · rwa [Nat.max_eq_left hb]
  · rcases max_choice a b with h | h
    · rwa [h]
    · rwa [h]

/-! ### Jump destinations -/

theorem lt_of_mem_jumpDestsFrom {r : Registry} {code : List Byte} {i skip t : Nat}
    (h : t ∈ jumpDestsFrom r i skip code) : t < i + code.length := by
  induction code generalizing i skip with
  | nil => simp [jumpDestsFrom] at h
  | cons op rest ih =>
    have tail : ∀ skip', t ∈ jumpDestsFrom r (i + 1) skip' rest → t < i + (op :: rest).length := fun skip' h' => by
      have := ih h'
      simp only [List.length_cons]
      omega
    cases skip with
    | succ skip => exact tail skip h
    | zero =>
      simp only [jumpDestsFrom] at h
      split at h
      · rcases List.mem_cons.1 h with rfl | h
        · simp
        · exact tail _ h
      · exact tail _ h

/-- Every jump destination is an offset of the code (R101 (a)). -/
theorem lt_length_of_mem_jumpDests {r : Registry} {code : List Byte} {t : Nat} (h : t ∈ jumpDests r code) :
    t < code.length := by
  simpa using lt_of_mem_jumpDestsFrom h

end Sys2Proof

namespace Sys2Proof.Machine

/-! ### Expansion within the address space -/

/-- A store at a Word's offset expands memory to at most 2^256 bytes (R11, R61). -/
theorem expandLen_word_le (w : Word) : expandLen w.toNat ≤ wordModulus :=
  expandLen_le (by decide) w.isLt

/-! ### Kinds -/

/-- A kind and the immediate determine the instruction. -/
theorem eq_toInstr_of_op {i : Instr} {o : Op} (h : i.op = o) : i = o.toInstr i.imm := by
  rw [← h, toInstr_op_imm]

/-! ### The stopped flag of a completed instruction -/

theorem Ran.stopped_of_stopped {o : Op} {s t : State} (h : Ran o s t) (hs : s.stopped = true) : t.stopped = true := by
  cases h with
  | stackAndPc | store => exact hs
  | stop | ret => rfl

/-- Only STOP and RETURN set the stopped flag (R38, R263). -/
theorem Ran.kind_of_sets_stopped {o : Op} {s t : State} (h : Ran o s t) (hs : s.stopped = false)
    (ht : t.stopped = true) : o = .stop ∨ o = .ret := by
  cases h with
  | stackAndPc | store => exact absurd (hs.symm.trans ht) Bool.false_ne_true
  | stop ho => exact .inl ho
  | ret _ _ _ ho => exact .inr ho

/-! ### The last line of the loop: it changes the status only (R110) -/

@[simp] theorem stoppedStatus_config (s : State) : (stoppedStatus s).config = s.config := by
  obtain ⟨st, h⟩ := stoppedStatus_eq s; rw [h]; rfl

@[simp] theorem stoppedStatus_code (s : State) : (stoppedStatus s).code = s.code := by
  obtain ⟨st, h⟩ := stoppedStatus_eq s; rw [h]; rfl

@[simp] theorem stoppedStatus_calldata (s : State) : (stoppedStatus s).calldata = s.calldata := by
  obtain ⟨st, h⟩ := stoppedStatus_eq s; rw [h]; rfl

@[simp] theorem stoppedStatus_stopped (s : State) : (stoppedStatus s).stopped = s.stopped := by
  obtain ⟨st, h⟩ := stoppedStatus_eq s; rw [h]; rfl

@[simp] theorem stoppedStatus_jds (s : State) : (stoppedStatus s).jds = s.jds := by
  obtain ⟨st, h⟩ := stoppedStatus_eq s; rw [h]; rfl

@[simp] theorem stoppedStatus_fault (s : State) : (stoppedStatus s).fault = s.fault := by
  obtain ⟨st, h⟩ := stoppedStatus_eq s; rw [h]; rfl

/-- The status at the end of a completed step: Stopped with the stopped flag set, else Running (R44). -/
theorem stoppedStatus_status {s : State} (h : s.status = .running) :
    (stoppedStatus s).status = if s.stopped = true then .stopped else .running := by
  cases hs : s.stopped with
  | true => rw [stoppedStatus_of_stopped h hs]; rfl
  | false => rw [stoppedStatus_of_not_stopped hs, h]; rfl

end Sys2Proof.Machine
end

section
/-! SUPPORT. The invariant of a run, and that every step keeps it (10_state.md R35, R44; 20_memory.md R78;
60_exceptions.md R271, R273). -/

namespace Sys2Proof.Machine

/-! ### The context -/

theorem ContextInv.withStatus {s : State} (h : ContextInv s) (v : Status) : ContextInv (s.withStatus v) :=
  { h with }

theorem ContextInv.withBudget {s : State} (h : ContextInv s) (v : Bound) : ContextInv (s.withBudget v) :=
  { h with }

theorem ContextInv.stoppedStatus {s : State} (h : ContextInv s) : ContextInv (stoppedStatus s) := by
  obtain ⟨st, hst⟩ := stoppedStatus_eq s
  exact hst ▸ h.withStatus st

/-- Reading an opcode byte of the code leaves pc within it (R34, R111). -/
theorem ContextInv.entered {s : State} (h : ContextInv s) (hpc : s.pc < s.code.length) : ContextInv (entered s) :=
  { h with
    pcNonneg := by have := h.pcNonneg; simp only [State.withPc_pc]; omega
    pcBound := by simp only [State.withPc_pc, State.withPc_code, State.withBudget_code]; omega }

/-- Ending the run with a return-data buffer in canonical form and within its limit (R260, R261). -/
theorem ContextInv.returning {s : State} {rd : Memory} (h : ContextInv s) (hwf : rd.wf = true)
    (hl : s.config.retdataLimit.exceededBy rd.len = false) : ContextInv ((s.withStopped true).withReturnData rd) :=
  { h with
    returnUnset := fun hst => absurd hst Bool.noConfusion
    returnWf := hwf
    returnLimit := hl }

theorem ContextInv.withStack {s : State} {st : List Word} (h : ContextInv s) (hst : st.length ≤ stackLimit) :
    ContextInv (s.withStack st) :=
  { h with depth := hst }

theorem ContextInv.withPc {s : State} {p : Int} (h : ContextInv s) (h0 : 0 ≤ p) (hp : p ≤ s.code.length + 32) :
    ContextInv (s.withPc p) :=
  { h with
    pcNonneg := h0
    pcBound := hp }

/-- A store that passed R62's limit check. -/
theorem ContextInv.store {s : State} (h : ContextInv s) (off : Word) (b : Byte)
    (hl : expandLen off.toNat ≤ s.memory.len ∨ s.config.memLimit.exceededBy (expandLen off.toNat) = false) :
    ContextInv (s.withMemory ((s.memory.grow (expandLen off.toNat)).set off.toNat b)) :=
  { h with
    memoryWf := Memory.set_wf (Memory.grow_wf h.memoryWf _)
      (lt_of_lt_of_le (lt_expandLen off.toNat) (Nat.le_max_right _ _)) b
    memoryGranule := by
      simp only [State.withMemory_memory, Memory.set_len, Memory.grow_len]
      rcases max_choice s.memory.len (expandLen off.toNat) with hm | hm <;> rw [hm]
      · exact h.memoryGranule
      · exact expandLen_dvd off.toNat
    memoryLimit := Bound.exceededBy_max h.memoryLimit hl
    memoryBound := max_le h.memoryBound (expandLen_word_le off) }

/-- A jump lands within the code (R101, R242). -/
theorem ContextInv.lt_of_mem_jds {s : State} {t : Nat} (h : ContextInv s) (ht : t ∈ s.jds) : t < s.code.length :=
  lt_length_of_mem_jumpDests (h.jdsOfCode ▸ ht)

/-- A completed instruction keeps the invariant of the context it runs in; it finds pc just past its opcode byte, so
that an immediate moves it to at most CODE_LEN + 32 (R11). -/
theorem Ran.contextInv {o : Op} {s t : State} (hr : Ran o s t) (h : ContextInv s) (hpc : s.pc ≤ s.code.length) :
    ContextInv t := by
  have h0 := h.pcNonneg
  have hdepth := h.depth
  cases hr with
  | stackAndPc st p _ hst hp =>
    have hp' : 0 ≤ p ∧ p ≤ s.code.length + 32 := by
      rcases hp with ⟨rfl, _⟩ | ⟨_, w, _, hw, rfl⟩
      · have := Op.immWidth_le o
        omega
      · have := h.lt_of_mem_jds hw
        omega
    exact (h.withStack (by omega)).withPc hp'.1 hp'.2
  | store off val rest _ hs hl =>
    have hrest : rest.length ≤ stackLimit := by simp only [hs, List.length_cons] at hdepth; omega
    exact (h.withStack hrest).store off _ hl
  | stop => exact h.returning Memory.empty_wf (Bound.exceededBy_zero _)
  | ret off len rest _ hs hl =>
    have hrest : rest.length ≤ stackLimit := by simp only [hs, List.length_cons] at hdepth; omega
    exact (h.withStack hrest).returning (Memory.range_wf h.memoryWf _ _) hl

/-! ### The outcome -/

theorem OutcomeInv.of_no_fault {s : State} (hf : s.fault = none) (hs : s.status = .stopped ↔ s.stopped = true)
    (hnf : s.status ≠ .faulted) : OutcomeInv s where
  stoppedIff := hs
  faultedIff := by simp [hf, hnf]
  recordKind := by simp [hf]
  recordOpcode := by simp [hf]
  recordTarget := by simp [hf]
  recordPc := by simp [hf]

theorem OutcomeInv.stoppedStatus {s : State} (hrun : s.status = .running) (hf : s.fault = none) :
    OutcomeInv (stoppedStatus s) := by
  have hst := stoppedStatus_status hrun
  apply OutcomeInv.of_no_fault
  · rw [stoppedStatus_fault, hf]
  · rw [hst, stoppedStatus_stopped]; split <;> simp_all
  · rw [hst]; split <;> simp

/-- A fault taken by a context that was not stopped gives a record as R273 says. -/
theorem OutcomeInv.takeFault {s : State} {k : FaultKind} {op : Byte} {opc : Int} {tg : Option Word}
    (hs : s.stopped = false) (hk : k ∈ reachableKinds) (hpc : 0 ≤ opc)
    (htg : tg.isSome = true ↔ k = .invalidJumpDestination) : OutcomeInv (s.takeFault k (some op) opc tg) where
  stoppedIff := by simp [hs]
  faultedIff := by simp
  recordKind := by simpa using hk
  recordOpcode := by simp
  recordTarget := by simpa using htg
  recordPc := by simpa using hpc

theorem Raised.target_isSome_iff {s t : State} {k : FaultKind} {tg : Option Word} (h : Raised s k tg t) :
    tg.isSome = true ↔ k = .invalidJumpDestination := by
  rcases h.target with ⟨hk, w, _, rfl⟩ | ⟨hk, rfl⟩
  · simp [hk]
  · simp [hk]

/-! ### The step -/

/-- A running context of a run is not stopped, has no fault record, and is no discarded one (R38, R44, R45). -/
theorem RunInv.running {s : State} (h : RunInv s) (hrun : s.status = .running) :
    s.stopped = false ∧ s.fault = none ∧ ContextInv s := by
  obtain ⟨ho, hc⟩ := h
  have hst : s.stopped = false := by simpa [hrun] using ho.stoppedIff
  have hf : s.fault = none := by simpa [hrun] using ho.faultedIff
  exact ⟨hst, hf, hc (by simp [hrun])⟩

/-- A faulted context meets the invariant by its record alone (R278). -/
theorem RunInv.of_faulted {s : State} (hf : s.status = .faulted) (h : OutcomeInv s) : RunInv s :=
  ⟨h, fun hnf => absurd hf hnf⟩

/-- A step that decodes keeps the invariant, by the shapes of `Stepped`. -/
theorem Stepped.runInv {s t : State} (ht : Stepped s t) (hrun : s.status = .running) (h : RunInv s) : RunInv t := by
  obtain ⟨hst, hf, hc⟩ := h.running hrun
  cases ht with
  | negativePc hpc => exact absurd hc.pcNonneg (by omega)
  | implicitStop =>
    have hc' := (hc.withBudget s.budget.pred).returning Memory.empty_wf (Bound.exceededBy_zero _)
    exact ⟨.of_no_fault hf (by simp) (by simp), fun _ => hc'.withStatus .stopped⟩
  | unknown op hpc => exact .of_faulted rfl (.takeFault hst (by decide) hpc (by simp))
  | ran op o t hpc hop _ _ hr =>
    have hlt : s.pc < s.code.length := by
      have := (List.getElem?_eq_some_iff.1 hop).1
      omega
    obtain ⟨-, -, -, -, hstatus, hfault, -⟩ := hr.unwritten
    have hle : s.pc + 1 ≤ s.code.length := by omega
    have hct := hr.contextInv (hc.entered hlt) hle
    exact ⟨.stoppedStatus (hstatus.trans hrun) (hfault.trans hf), fun _ => hct.stoppedStatus⟩
  | raised op o k tg t hpc _ _ _ hr =>
    obtain ⟨b, hb⟩ := Registry.byteOf_isSome (Config.registry_wf hc.configWf) o
    rw [hb]
    exact .of_faulted rfl (.takeFault (hr.stopped.trans hst) hr.kind.1 hpc hr.target_isSome_iff)

/-- Settles O48: by the shapes a step can have (`step_cases`), each of which keeps the context's invariant and the
outcome's. -/
theorem stepKeepsRunInvariant : Obligations.StepKeepsRunInvariant := by
  intro s t h hstep
  obtain ⟨hrun, ⟨-, rfl⟩ | ⟨-, ht⟩⟩ := step_cases hstep
  · obtain ⟨hst, hf, hc⟩ := h.running hrun
    exact ⟨.of_no_fault hf (by simp [hst]) (by simp), fun _ => hc.withStatus .suspended⟩
  · exact ht.runInv hrun h

end Sys2Proof.Machine
end

section
/-! SUPPORT. The frame of each group of instructions (10_state.md R50), and what no step writes. -/

namespace Sys2Proof.Machine

/-- Settles O45: such an instruction completes with the one effect that writes the stack and pc, and pc is moved only
by an immediate or a jump. -/
theorem frameOfStackAndControl : Obligations.FrameOfStackAndControl := by
  intro i s t hstop hret hmstore8 hex hnf
  cases exec_ran hex hnf with
  | stackAndPc st p _ _ hp =>
    refine ⟨⟨rfl, rfl, rfl, fun _ => rfl, rfl, rfl, rfl, rfl, rfl, rfl, rfl⟩, fun hjump hjumpi hw => ?_⟩
    rcases hp with ⟨hp, _⟩ | ⟨hj | hj, _⟩
    · simpa [hw] using hp
    · exact absurd (eq_toInstr_of_op hj) hjump
    · exact absurd (eq_toInstr_of_op hj) hjumpi
  | store _ _ _ ho => exact absurd (eq_toInstr_of_op ho) hmstore8
  | stop ho => exact absurd (eq_toInstr_of_op ho) hstop
  | ret _ _ _ ho => exact absurd (eq_toInstr_of_op ho) hret

/-- Settles O46: a completed MSTORE8 is a store at the first word popped, after an expansion that changes no byte. -/
theorem frameOfMstore8 : Obligations.FrameOfMstore8 := by
  intro s t hwf hex hnf
  cases exec_ran hex hnf with
  | store off val rest _ hs =>
    refine ⟨fun off' s1 hpop k hk => ?_, by simp [hs], rfl, rfl, rfl, rfl, rfl, rfl, rfl, rfl, rfl, rfl⟩
    rw [pop_cons hs] at hpop
    cases hpop
    exact (Memory.set_get_other (Memory.grow_wf hwf _) hk _).trans (Memory.grow_get hwf _ k)
  | stackAndPc _ _ ho => exact absurd rfl ho.2.2
  | stop ho => cases ho
  | ret _ _ _ ho => cases ho

/-- Settles O47: a completed STOP or RETURN has the effect of its kind, and neither writes memory or pc. -/
theorem frameOfTermination : Obligations.FrameOfTermination := by
  intro i s t hi hex hnf
  have hr := exec_ran hex hnf
  rcases hi with rfl | rfl
  · cases hr with
    | stop => exact ⟨rfl, fun _ => rfl, rfl, rfl, rfl, rfl, rfl, rfl, rfl, rfl, fun _ => rfl, nofun⟩
    | stackAndPc _ _ ho => exact absurd rfl ho.1
    | store _ _ _ ho => cases ho
    | ret _ _ _ ho => cases ho
  · cases hr with
    | ret off len rest _ hs =>
      exact ⟨rfl, fun _ => rfl, rfl, rfl, rfl, rfl, rfl, rfl, rfl, rfl, nofun, fun _ => by simp [hs]⟩
    | stackAndPc _ _ ho => exact absurd rfl ho.2.1
    | store _ _ _ ho => cases ho
    | stop ho => cases ho

/-- Settles O52: a step that raises no fault either suspends, or is the implicit STOP, or completes an instruction,
and none of these writes read-only state. -/
theorem readOnlyStateIsConstant : Obligations.ReadOnlyStateIsConstant := by
  intro s t hstep hnf
  obtain ⟨-, ⟨-, rfl⟩ | ⟨-, ht⟩⟩ := step_cases hstep
  · exact ⟨rfl, rfl, rfl, rfl⟩
  · cases ht with
    | implicitStop => exact ⟨rfl, rfl, rfl, rfl⟩
    | ran op o t _ _ _ _ hr =>
      obtain ⟨hconfig, hcode, hcalldata, hjds, -⟩ := hr.unwritten
      simp only [stoppedStatus_config, stoppedStatus_code, stoppedStatus_calldata, stoppedStatus_jds]
      exact ⟨hcode, hcalldata, hjds, hconfig⟩
    | negativePc | unknown | raised => exact absurd rfl hnf

end Sys2Proof.Machine
end

section
/-! SUPPORT. The stopped flag and the status at the end of a step (10_state.md R38, R44), and what the host reads. -/

namespace Sys2Proof.Machine

/-- No shape of a step clears the stopped flag. -/
theorem Stepped.stopped_of_stopped {s t : State} (h : Stepped s t) (hs : s.stopped = true) : t.stopped = true := by
  cases h with
  | negativePc | unknown => exact hs
  | implicitStop => rfl
  | ran op o t _ _ _ _ hr =>
    rw [stoppedStatus_stopped]
    exact hr.stopped_of_stopped hs
  | raised op o k tg t _ _ _ _ hr => exact hr.stopped.trans hs

/-- The shapes of a step that set the stopped flag: the implicit STOP, and a completed STOP or RETURN (R263). -/
theorem Stepped.of_sets_stopped {s t : State} (h : Stepped s t) (hrun : s.status = .running)
    (hs : s.stopped = false) (ht : t.stopped = true) :
    t.status = .stopped ∧ ((s.code.length : Int) ≤ s.pc ∨ ∃ op, s.code[s.pc.toNat]? = some op ∧
      (s.config.registry.slot op = .op .stop ∨ s.config.registry.slot op = .op .ret)) := by
  have hclear {u : State} (hu : u.stopped = s.stopped) : ¬ u.stopped = true := by simp [hu, hs]
  cases h with
  | implicitStop hpc => exact ⟨rfl, .inl hpc⟩
  | ran op o t _ hop hslot _ hr =>
    rw [stoppedStatus_stopped] at ht
    obtain ⟨-, -, -, -, hstatus, -⟩ := hr.unwritten
    refine ⟨by rw [stoppedStatus_status (hstatus.trans hrun), if_pos ht], .inr ⟨op, hop, ?_⟩⟩
    exact (hr.kind_of_sets_stopped hs ht).imp (fun ho => by rw [hslot, ho]) (fun ho => by rw [hslot, ho])
  | negativePc | unknown => exact absurd ht (hclear rfl)
  | raised op o k tg t _ _ _ _ hr => exact absurd ht (hclear hr.stopped)

/-- Settles O51: by the shapes a step can have; suspending leaves the flag as it is. -/
theorem stoppedFlagIsMonotonic : Obligations.StoppedFlagIsMonotonic := by
  refine ⟨fun s t hstep hs => ?_, fun s t hstep hs ht => ?_⟩
  · obtain ⟨-, ⟨-, rfl⟩ | ⟨-, hst⟩⟩ := step_cases hstep
    · exact hs
    · exact hst.stopped_of_stopped hs
  · obtain ⟨hrun, ⟨-, rfl⟩ | ⟨-, hst⟩⟩ := step_cases hstep
    · exact absurd (hs.symm.trans ht) Bool.false_ne_true
    · exact hst.of_sets_stopped hrun hs ht

/-- The status after a step that decodes, from a context with nothing decided yet (R44, R283). -/
theorem Stepped.status_iff {s t : State} (h : Stepped s t) (hrun : s.status = .running) (hs : s.stopped = false)
    (hf : s.fault = none) :
    t.status ≠ .suspended ∧ (t.status = .stopped ↔ t.stopped = true) ∧
      (t.status = .faulted ↔ t.fault.isSome = true) := by
  cases h with
  | negativePc | unknown => simp [hs]
  | implicitStop => simp [hf]
  | ran op o t _ _ _ _ hr =>
    obtain ⟨-, -, -, -, hstatus, hfault, -⟩ := hr.unwritten
    have hfault' : t.fault = none := hfault.trans hf
    rw [stoppedStatus_status (hstatus.trans hrun), stoppedStatus_stopped, stoppedStatus_fault, hfault']
    cases t.stopped <;> simp
  | raised op o k tg t _ _ _ _ hr =>
    have ht : t.stopped = false := hr.stopped.trans hs
    simp [ht]

/-- Settles O54: a used-up budget suspends, and every other step has one of the shapes of `Stepped`. -/
theorem statusFollowsTheOutcome : Obligations.StatusFollowsTheOutcome := by
  intro s hrun hs hf
  by_cases hb : s.budget.isZero = true
  · exact ⟨_, step_suspends hrun hb, by simp [hb], by simp [hs], by simp [hf]⟩
  · obtain ⟨t, hstep, ht⟩ := step_stepped ⟨hrun, by simpa using hb⟩
    obtain ⟨hsusp, hstopped, hfaulted⟩ := ht.status_iff hrun hs hf
    exact ⟨t, hstep, iff_of_false hsusp hb, hstopped, hfaulted⟩

/-- Settles O19: one case of `runOutcome` for each status. -/
theorem runOutputs : Obligations.RunOutputs := by
  refine ⟨fun s h => ?running, fun s h => ?stopped, fun s h => ?suspended, fun s r h hr => ?faulted⟩
  case running => simp only [runOutcome, h]
  case stopped => simp only [runOutcome, h]
  case suspended => simp only [runOutcome, h]
  case faulted => simp only [runOutcome, h, hr, Option.map_some]

end Sys2Proof.Machine
end

section
/-! SUPPORT. The stack primitives (10_state.md R40 to R43). -/

namespace Sys2Proof.Machine

theorem wordModulus_cast : (wordModulus : Int) = 2 ^ 256 := by norm_num

/-- Settles O20: the three cases of `push`, with the pushed Word as the value itself. -/
theorem pushPrimitive : Obligations.PushPrimitive := by
  have hmod := wordModulus_cast
  refine ⟨fun v s hd => push_overflow hd, fun v s hd hv => push_badItem hd (by omega), fun v s hd h0 h1 => ?_⟩
  have hlt : v < (wordModulus : Int) := by omega
  refine ⟨BitVec.ofInt 256 v, ?_, push_ok hd h0 hlt⟩
  rw [BitVec.toNat_ofInt]
  omega

/-- Exchanging two elements of a list (R43): where each element stands afterwards. -/
theorem exchange_getElem? {α : Type} {st : List α} {n : Nat} (hn : n < st.length) (h1 : 1 ≤ n) :
    ((st.set 0 st[n]).set n (st[0]'(by omega)))[0]? = st[n]? ∧
    ((st.set 0 st[n]).set n (st[0]'(by omega)))[n]? = st[0]? ∧
    ∀ i, i ≠ 0 → i ≠ n → ((st.set 0 st[n]).set n (st[0]'(by omega)))[i]? = st[i]? := by
  have h0 : 0 < st.length := by omega
  refine ⟨?_, ?_, fun i hi0 hin => ?_⟩
  · rw [List.getElem?_set_ne (by omega), List.getElem?_set_self h0, List.getElem?_eq_getElem hn]
  · rw [List.getElem?_set_self (by simpa using hn), List.getElem?_eq_getElem h0]
  · rw [List.getElem?_set_ne hin.symm, List.getElem?_set_ne hi0.symm]

/-- Settles O21: each primitive by its two cases, and the exchange by where its elements stand. -/
theorem popPeekSwapPrimitives : Obligations.PopPeekSwapPrimitives := by
  refine ⟨fun s hs => pop_nil hs, fun s w rest hs => pop_cons hs, fun n s hn => peek_underflow hn,
    fun n s hn => peek_ok hn, fun n s _ hn => swap_underflow (by omega), fun n s h1 hn => ?_⟩
  exact ⟨_, swap_ok hn, by simp, exchange_getElem? hn h1⟩

end Sys2Proof.Machine
end

section
/-! SUPPORT. No program can observe the calldata (10_state.md R37): replacing it commutes with every operation that a
step performs. -/

namespace Sys2Proof.Machine

/-- The same context with other calldata. -/
def State.withCalldata (s : State) (cd : List Byte) : State := { s with calldata := cd }

/-- A change of the state that a primitive leaves, whether it completes or raises. -/
def Prim.mapState {α : Type} (f : State → State) : Prim α → Prim α
  | .ok v s => .ok v (f s)
  | .raise k tg s => .raise k tg (f s)

/-- A primitive that neither reads nor writes the calldata. -/
def IgnoresCalldata {α : Type} (p : State → Prim α) : Prop :=
  ∀ (s : State) (cd : List Byte), p (s.withCalldata cd) = (p s).mapState (·.withCalldata cd)

/-! ### Primitives -/

theorem IgnoresCalldata.andThen {α β : Type} {p : State → Prim α} {f : α → State → Prim β} (hp : IgnoresCalldata p)
    (hf : ∀ v, IgnoresCalldata (f v)) : IgnoresCalldata (fun s => (p s).andThen f) := by
  intro s cd
  simp only [hp s cd]
  cases p s with
  | ok v t => exact hf v t cd
  | raise k tg t => rfl

theorem push_ignoresCalldata (v : Int) : IgnoresCalldata (push v) := by
  intro s cd
  simp only [push, apply_ite (Prim.mapState _)]
  rfl

theorem pop_ignoresCalldata : IgnoresCalldata pop := by
  intro s cd
  cases hs : s.stack with
  | nil => rw [pop_nil hs, pop_nil (s := s.withCalldata cd) hs]; rfl
  | cons w rest => rw [pop_cons hs, pop_cons (s := s.withCalldata cd) hs]; rfl

theorem peek_ignoresCalldata (n : Nat) : IgnoresCalldata (peek n) := by
  intro s cd
  by_cases h : n < s.stack.length
  · rw [peek_ok h, peek_ok (s := s.withCalldata cd) h]; rfl
  · have h' : s.stack.length ≤ n := by omega
    rw [peek_underflow h', peek_underflow (s := s.withCalldata cd) h']; rfl

theorem swap_ignoresCalldata (n : Nat) : IgnoresCalldata (swap n) := by
  intro s cd
  by_cases h : n < s.stack.length
  · rw [swap_ok h, swap_ok (s := s.withCalldata cd) h]; rfl
  · have h' : s.stack.length ≤ n := by omega
    rw [swap_underflow h', swap_underflow (s := s.withCalldata cd) h']; rfl

theorem jumpTo_ignoresCalldata (t : Word) : IgnoresCalldata (jumpTo t) := by
  intro s cd
  simp only [jumpTo, apply_ite (Prim.mapState _)]
  rfl

theorem memWrite_ignoresCalldata (k v : Int) : IgnoresCalldata (memWrite k v) := by
  intro s cd
  simp only [memWrite, apply_ite (Prim.mapState _)]
  rfl

theorem popTwo_ignoresCalldata : IgnoresCalldata popTwo :=
  pop_ignoresCalldata.andThen fun _ => pop_ignoresCalldata.andThen fun _ _ _ => rfl

/-! ### Instructions -/

theorem binOp_ignoresCalldata (f : Int → Int → Int) : IgnoresCalldata (binOp f) :=
  popTwo_ignoresCalldata.andThen fun _ s cd => push_ignoresCalldata _ s cd

theorem jumpiBody_ignoresCalldata : IgnoresCalldata jumpiBody :=
  popTwo_ignoresCalldata.andThen fun tc s cd => by
    split
    · exact jumpTo_ignoresCalldata tc.1 s cd
    · rfl

theorem returnBody_ignoresCalldata : IgnoresCalldata returnBody :=
  popTwo_ignoresCalldata.andThen fun _ s cd => by
    simp only [apply_ite (Prim.mapState _)]
    rfl

theorem opBody_ignoresCalldata (o : Op) (imm : Word) : IgnoresCalldata (opBody o imm) := by
  cases o with
  | stop | jumpdest => exact fun _ _ => rfl
  | add | mul | sub | div => exact binOp_ignoresCalldata _
  | pop => exact pop_ignoresCalldata.andThen fun _ _ _ => rfl
  | mstore8 => exact popTwo_ignoresCalldata.andThen fun _ => memWrite_ignoresCalldata _ _
  | jump => exact pop_ignoresCalldata.andThen jumpTo_ignoresCalldata
  | jumpi => exact jumpiBody_ignoresCalldata
  | pc => exact fun s cd => push_ignoresCalldata (s.pc - 1) s cd
  | msize => exact fun s cd => push_ignoresCalldata (activeWords s) s cd
  | push n => exact fun s cd => push_ignoresCalldata imm.toNat (s.withPc (s.pc + (n.val + 1 : Nat))) cd
  | dup n => exact (peek_ignoresCalldata n.val).andThen fun v => push_ignoresCalldata v.toNat
  | swap n => exact swap_ignoresCalldata (n.val + 1)
  | ret => exact returnBody_ignoresCalldata

theorem exec_withCalldata (i : Instr) (s : State) (cd : List Byte) :
    exec i (s.withCalldata cd) = mapNext (·.withCalldata cd) (exec i s) := by
  simp only [exec_eq_runInstr, runInstr, opBody_ignoresCalldata i.op i.imm s cd]
  cases opBody i.op i.imm s <;> rfl

/-! ### The step -/

theorem decodeAndExecute_withCalldata (s : State) (cd : List Byte) :
    decodeAndExecute (s.withCalldata cd) = mapNext (·.withCalldata cd) (decodeAndExecute s) := by
  have hfetch : fetch (s.withCalldata cd) = fetch s := rfl
  simp only [decodeAndExecute, hfetch]
  cases fetch s with
  | negativePc | unknown => rfl
  | implicitStop => exact exec_withCalldata .stop s cd
  | instr i => exact exec_withCalldata i (s.withPc (s.pc + 1)) cd

theorem stoppedStatus_withCalldata (s : State) (cd : List Byte) :
    stoppedStatus (s.withCalldata cd) = (stoppedStatus s).withCalldata cd := by
  simp only [stoppedStatus, apply_ite (State.withCalldata · cd)]
  rfl

/-- Stepping with other calldata is stepping and then replacing the calldata. -/
theorem step_withCalldata (s : State) (cd : List Byte) :
    step (s.withCalldata cd) = mapNext (·.withCalldata cd) (step s) := by
  by_cases hrun : s.status = .running
  · by_cases hb : s.budget.isZero = true
    · rw [step_suspends hrun hb, step_suspends (s := s.withCalldata cd) hrun hb]; rfl
    · have hs : Steps s := ⟨hrun, by simpa using hb⟩
      have hd := decodeAndExecute_withCalldata (s.withBudget s.budget.pred) cd
      rw [step_running hs, step_running (s := s.withCalldata cd) hs]
      refine (congrArg (mapNext stoppedStatus) hd).trans ?_
      cases decodeAndExecute (s.withBudget s.budget.pred) with
      | next t => exact congrArg Host.Outcome.next (stoppedStatus_withCalldata t cd)
      | fault | refused => rfl
  · rw [step_ended hrun, step_ended (s := s.withCalldata cd) hrun]; rfl

/-- Settles O55: the step commutes with replacing the calldata, so the next state differs in it alone. -/
theorem calldataIsUnobservable : Obligations.CalldataIsUnobservable := by
  intro s t cd hstep
  have h := step_withCalldata s cd
  rw [hstep] at h
  exact ⟨t.withCalldata cd, h, rfl, rfl, rfl, fun _ => rfl⟩

end Sys2Proof.Machine
end

section
/-! SUPPORT. Memory and calldata as the primitives read and write them, and MLEN along a run (20_memory.md R61 to R64,
R70, R71, R78). -/

namespace Sys2Proof

/-! ### Byte order -/

/-- The big-endian value of `n` bytes given by their index, as a sum (R15). -/
theorem beValue_map_range (f : Nat → Byte) (n : Nat) :
    beValue ((List.range n).map f) = ((List.range n).map fun i => (f i).toNat * 256 ^ (n - 1 - i)).sum := by
  induction n generalizing f with
  | zero => rfl
  | succ n ih =>
    have hexp (i : Nat) : n - 1 - i = n - (i + 1) := by omega
    simp [List.range_succ_eq_map, beValue, Function.comp_def, ih, hexp]

end Sys2Proof

namespace Sys2Proof.Machine

/-! ### The expansion length (R61) -/

/-- A quotient that is the ceiling of (k + 1) / 32 gives the expansion length. -/
theorem expandLen_eq {k q : Nat} (hlt : memGranule * q < k + 1 + memGranule) (hle : k + 1 ≤ memGranule * q) :
    expandLen k = memGranule * q := by
  simp only [expandLen, memGranule] at *
  omega

/-- Settles O23: the laws of `expandLen`; each example is an instance of the quotient's. -/
theorem expandLenIsNextBoundary : Obligations.ExpandLenIsNextBoundary := by
  refine ⟨fun k => ⟨expandLen_dvd k, lt_expandLen k, fun m hm hk => expandLen_le hm hk⟩,
    fun k q hlt hle => expandLen_eq hlt hle, ?_, ?_, ?_, ?_⟩
  · exact expandLen_eq (q := 1) (by decide) (by decide)
  · exact expandLen_eq (q := 1) (by decide) (by decide)
  · exact expandLen_eq (q := 2) (by decide) (by decide)
  · exact expandLen_eq (k := 2 ^ 256 - 1) (q := 2 ^ 251) (by decide) (by decide)

/-! ### Stores (R62) -/

theorem memWrite_negative {k v : Int} {s : State} (hk : k < 0) :
    memWrite k v s = .raise .invalidMemoryAccess none s := by
  simp only [memWrite, if_pos hk]

theorem memWrite_badValue {k v : Int} {s : State} (hk : 0 ≤ k) (hv : v < 0 ∨ 255 < v) :
    memWrite k v s = .raise .invalidMemoryValue none s := by
  simp only [memWrite, if_neg (Int.not_lt.2 hk), if_pos hv]

/-- Settles O24: one lemma for each way `memWrite` ends; a completed one is an expansion, which changes no byte, and
then a store within it. -/
theorem memWriteStoresOneByte : Obligations.MemWriteStoresOneByte := by
  refine ⟨fun k v s hk => memWrite_negative hk, fun k v s hk hv => memWrite_badValue hk hv,
    fun k v s hlt hl => memWrite_limit hlt hl, fun k v s hwf hl => ?_⟩
  have hgrown := Memory.grow_wf hwf (expandLen k)
  have hk : k < (s.memory.grow (expandLen k)).len := (lt_expandLen k).trans_le (Nat.le_max_right ..)
  refine ⟨_, memWrite_ok hl, Memory.set_wf hgrown hk v, rfl, fun hin hdvd => ?_, Memory.set_get_same hgrown hk v,
    fun j hj => ?_⟩
  · exact max_eq_left (expandLen_le hdvd hin)
  · exact (Memory.set_get_other hgrown hj v).trans (Memory.grow_get hwf _ j)

/-! ### Loads and range reads (R63, R64) -/

theorem load_negative {o : Int} {s : State} (ho : o < 0) : load o s = .raise .invalidMemoryAccess none s := by
  simp only [load, if_pos ho]

theorem load_natCast (k : Nat) (s : State) : load k s = .ok (s.memory.get k) s := by
  simp only [load, if_neg (Int.not_lt.2 (Int.natCast_nonneg k)), Int.toNat_natCast]

theorem Memory.get_of_lt_len {m : Memory} {k : Nat} (h : k < m.len) : m.get k = cellsGet k m.cells := by
  simp only [Memory.get, if_pos h]

/-- A range read of no bytes lists none (R64). -/
theorem Memory.range_zero (m : Memory) (k : Nat) : m.range k 0 = Memory.empty := by
  simp [Memory.range, cellsRange, Memory.empty]

/-- Settles O25: `load` is `Memory.get` and `Memory.range` reads the same bytes. -/
theorem loadAndRangeRead : Obligations.LoadAndRangeRead := by
  refine ⟨fun o s ho => load_negative ho, fun k s hk => ?_, fun k s hk => ?_, fun m k n => ⟨rfl, fun i hi => ?_⟩,
    Memory.range_zero⟩
  · rw [load_natCast, Memory.get_of_len_le hk]
  · rw [load_natCast, Memory.get_of_lt_len hk]
  · exact Memory.range_get m k n i hi

/-! ### MLEN along a run (R78) -/

@[simp] theorem stoppedStatus_memory (s : State) : (stoppedStatus s).memory = s.memory := by
  obtain ⟨st, h⟩ := stoppedStatus_eq s; rw [h]; rfl

/-- What an instruction or a step does to MLEN: it keeps it, or a store raises it to an expansion length (R62). -/
def Memory.KeptOrExpanded (m m' : Memory) : Prop := m'.len = m.len ∨ ∃ k, m'.len = max m.len (expandLen k)

theorem Memory.KeptOrExpanded.le {m m' : Memory} (h : m.KeptOrExpanded m') : m.len ≤ m'.len := by
  rcases h with h | ⟨k, h⟩
  · exact h.ge
  · exact h ▸ Nat.le_max_left ..

theorem Memory.KeptOrExpanded.dvd {m m' : Memory} (h : m.KeptOrExpanded m') (hm : memGranule ∣ m.len) :
    memGranule ∣ m'.len := by
  rcases h with h | ⟨k, h⟩
  · rwa [h]
  · rw [h]
    rcases max_choice m.len (expandLen k) with hmax | hmax <;> rw [hmax]
    · exact hm
    · exact expandLen_dvd k

/-- Of the completed instructions only a store changes MLEN. -/
theorem Ran.memory_keptOrExpanded {o : Op} {s t : State} (h : Ran o s t) : s.memory.KeptOrExpanded t.memory := by
  cases h with
  | stackAndPc | stop | ret => exact .inl rfl
  | store off => exact .inr ⟨off.toNat, rfl⟩

theorem step_memory_keptOrExpanded {s t : State} (hstep : step s = .next t) (hnf : t.status ≠ .faulted) :
    s.memory.KeptOrExpanded t.memory := by
  obtain ⟨-, ⟨-, rfl⟩ | ⟨-, ht⟩⟩ := step_cases hstep
  · exact .inl rfl
  · cases ht with
    | implicitStop => exact .inl rfl
    | ran op o t _ _ _ _ hr =>
      rw [stoppedStatus_memory]
      exact hr.memory_keptOrExpanded
    | negativePc | unknown | raised => exact absurd rfl hnf

/-- Stores under no memory limit all complete, and MLEN is then the maximum of what it was and their expansion
lengths. -/
theorem storeAll_memory_len (stores : List (Nat × Byte)) {s : State} (hl : s.config.memLimit = .infinite) :
    ∃ t, storeAll stores s = .ok () t ∧
      t.memory.len = (stores.map fun kb => expandLen kb.1).foldl max s.memory.len := by
  induction stores generalizing s with
  | nil => exact ⟨s, rfl, rfl⟩
  | cons kb rest ih =>
    have hwrite := memWrite_ok (k := kb.1) (v := kb.2) (s := s) (.inr (by rw [hl]; rfl))
    simp only [storeAll, hwrite, Prim.andThen_ok]
    exact ih hl

/-- Settles O26: a step keeps MLEN or raises it to an expansion length, and a sequence of stores does so at each of
its offsets. -/
theorem memoryLengthIsTheMaximum : Obligations.MemoryLengthIsTheMaximum := by
  refine ⟨fun s t hstep hnf => (step_memory_keptOrExpanded hstep hnf).le,
    fun s t hstep hnf hs => (step_memory_keptOrExpanded hstep hnf).dvd hs, fun _ _ _ _ => rfl, fun stores s hl h0 => ?_⟩
  have h := storeAll_memory_len stores hl
  rwa [h0] at h

/-! ### Calldata (R70, R71) -/

theorem calldataByte_negative {o : Int} {s : State} (ho : o < 0) :
    calldataByte o s = .raise .invalidCalldataAccess none s := by
  simp only [calldataByte, if_pos ho]

theorem calldataByte_natCast (k : Nat) (s : State) : calldataByte k s = .ok (s.calldata.getD k 0) s := by
  simp only [calldataByte, if_neg (Int.not_lt.2 (Int.natCast_nonneg k)), Int.toNat_natCast]

/-- Consecutive reads give the bytes of the buffer padded with zeros, and leave the state as it is. -/
theorem calldataBytes_natCast (k n : Nat) (s : State) :
    calldataBytes k n s = .ok ((List.range n).map fun i => s.calldata.getD (k + i) 0) s := by
  induction n generalizing k with
  | zero => rfl
  | succ n ih =>
    have hnext : ((k : Int) + 1) = (k + 1 : Nat) := rfl
    have hidx (i : Nat) : k + 1 + i = k + (i + 1) := by omega
    simp only [calldataBytes, calldataByte_natCast, hnext, ih, hidx, Prim.andThen_ok, List.range_succ_eq_map,
      List.map_cons, List.map_map, Function.comp_def, Nat.add_zero, Nat.succ_eq_add_one]

/-- `read_word` is the big-endian value of 32 consecutive reads. -/
theorem calldataWord_natCast (k : Nat) (s : State) :
    calldataWord k s =
      .ok (BitVec.ofNat 256 (beValue ((List.range 32).map fun i => s.calldata.getD (k + i) 0))) s := by
  simp only [calldataWord, calldataBytes_natCast, Prim.andThen_ok]

/-- Settles O27: `read_byte` by its cases, `read_word` as the value of 32 bytes, which a Word holds in full, and the
calldata among the state that no step writes. -/
theorem calldataReads : Obligations.CalldataReads := by
  refine ⟨fun o s ho => calldataByte_negative ho, fun k s hk => ?_, fun k s hk => ?_,
    fun k s => ⟨_, calldataWord_natCast k s, ?_⟩, fun s t hstep hnf => ?_⟩
  · rw [calldataByte_natCast, List.getD_eq_default _ _ hk]
  · rw [calldataByte_natCast, List.getD_eq_getElem _ _ hk]
  · have hlt := beValue_lt ((List.range 32).map fun i => s.calldata.getD (k + i) 0)
    rw [List.length_map, List.length_range, show 256 ^ 32 = 2 ^ 256 from rfl] at hlt
    rw [BitVec.toNat_ofNat, Nat.mod_eq_of_lt hlt, beValue_map_range]
  · obtain ⟨-, hcalldata, -⟩ := readOnlyStateIsConstant s t hstep hnf
    exact hcalldata

end Sys2Proof.Machine
end

section
/-! SUPPORT. The encoding (30_encoding.md R90 to R99): decoding what was encoded, the length that the first byte gives,
and the immediate as a big-endian number. -/

namespace Sys2Proof

/-! ### What decoding reads -/

theorem decode_of_slot {r : Registry} {b : Byte} {o : Op} (h : r.slot b = .op o) (rest : List Byte) :
    decode r (b :: rest) = .instr (o.toInstr (immRead rest 0 o.immWidth)) := by
  rw [decode_cons, h]

/-- Bytes that decode to an instruction begin with a registered byte, whose kind and immediate give it (R93, R99). -/
theorem decode_cons_eq_instr {r : Registry} {b : Byte} {rest : List Byte} {i : Instr}
    (h : decode r (b :: rest) = .instr i) :
    ∃ o, r.slot b = .op o ∧ i = o.toInstr (immRead rest 0 o.immWidth) := by
  rw [decode_cons] at h
  cases hs : r.slot b with
  | invalid => rw [hs] at h; cases h
  | op o => rw [hs] at h; cases h; exact ⟨o, rfl, rfl⟩

/-- An immediate read at offset 0 looks at its own bytes only. -/
theorem immRead_congr {bs bs' : List Byte} {n : Nat} (h : bs'.take n = bs.take n) : immRead bs' 0 n = immRead bs 0 n := by
  simp only [immRead, List.drop_zero, h]

/-! ### Decoding an encoding -/

theorem immRead_beBytes_append {n v : Nat} (hv : v < 256 ^ n) (rest : List Byte) :
    immRead (beBytes n v ++ rest) 0 n = BitVec.ofNat 256 v := by
  have htake : (beBytes n v ++ rest).take n = beBytes n v := List.take_left' (beBytes_length n v)
  simp only [immRead, List.drop_zero, htake, beValue_beBytes, Nat.mod_eq_of_lt hv]

/-- Settles O4: the opcode byte selects the instruction's own kind, the bytes after it are the immediate's, and the two
give the instruction back. -/
theorem decodeOfEncode : Obligations.DecodeOfEncode := by
  intro r i rest hw hi
  obtain ⟨b, hb⟩ := Registry.byteOf_isSome hw i.op
  have himm : immRead (beBytes i.op.immWidth i.imm.toNat ++ rest) 0 i.op.immWidth = i.imm := by
    rw [immRead_beBytes_append (Instr.imm_lt hi), BitVec.ofNat_toNat, BitVec.setWidth_eq]
  simp only [encode, hb, List.cons_append]
  rw [decode_of_slot ((Registry.slot_eq_op_iff hw).2 hb), himm, Machine.toInstr_op_imm]

/-- Settles O6: the first byte fixes the kind, and the kind fixes how many bytes after it are read. -/
theorem firstByteGivesLength : Obligations.FirstByteGivesLength := by
  intro r b rest i hw hdec
  obtain ⟨o, hslot, rfl⟩ := decode_cons_eq_instr hdec
  have hlen : (o.toInstr (immRead rest 0 o.immWidth)).length = 1 + o.immWidth := by
    rw [Instr.length, Machine.toInstr_op]
  have hwidth := Op.immWidth_le o
  rw [hlen]
  refine ⟨by rw [Registry.operandWidth_of_slot hw hslot], by omega, by omega, fun rest' hrest' => ?_⟩
  rw [Nat.add_sub_cancel_left] at hrest'
  rw [decode_of_slot hslot, immRead_congr hrest']

/-! ### The immediate as a number (R99) -/

/-- The bytes present among `n` from offset `p` on, by their offsets. -/
theorem take_drop_eq_map_range (code : List Byte) (p n : Nat) :
    (code.drop p).take n = (List.range (min n (code.length - p))).map fun i => code.getD (p + i) 0 := by
  refine List.ext_getElem (by simp) fun i h _ => ?_
  have hlt : p + i < code.length := by simp only [List.length_take, List.length_drop] at h; omega
  simp [hlt]

/-- Settles O7: the value of the bytes present, which a Word holds in full. -/
theorem immediateIsLeftPadded : Obligations.ImmediateIsLeftPadded := by
  rintro code p n m - hn rfl
  have hval := immRead_toNat code p n hn
  rw [take_drop_eq_map_range] at hval
  have hlt := beValue_lt ((List.range (min n (code.length - p))).map fun i => code.getD (p + i) 0)
  rw [← hval, List.length_map, List.length_range] at hlt
  have hpow {a b : Nat} (h : a ≤ b) : 256 ^ a ≤ 256 ^ b := Nat.pow_le_pow_right (by decide) h
  refine ⟨hval.trans (beValue_map_range _ _), hlt, hpow (Nat.min_le_left ..), hpow (b := 32) hn, fun hm => ?_⟩
  rw [hm, pow_zero] at hlt
  exact BitVec.eq_of_toNat_eq (Nat.lt_one_iff.1 hlt)

end Sys2Proof
end

section
/-! SUPPORT. The registry: its construction (30_encoding.md R97) and the default table read both ways (R91, R96). -/

namespace Sys2Proof

/-! ### The DuplicateOpcode check (R97) -/

/-- No two registrations share an opcode byte, and no two share a name. -/
def DistinctEntries (es : List Registration) : Prop := (es.map (·.byte)).Nodup ∧ (es.map (·.name)).Nodup

theorem DistinctEntries.of_append {xs ys : List Registration} (h : DistinctEntries (xs ++ ys)) : DistinctEntries xs := by
  obtain ⟨hbyte, hname⟩ := h
  rw [List.map_append] at hbyte hname
  exact ⟨hbyte.of_append_left, hname.of_append_left⟩

theorem nodup_map_concat {α β : Type} (f : α → β) (xs : List α) (x : α) :
    ((xs ++ [x]).map f).Nodup ↔ (xs.map f).Nodup ∧ ∀ y ∈ xs, f y ≠ f x := by
  simp [List.nodup_append]

/-- Registering one more instruction keeps the entries distinct or fails (R97). -/
theorem Registry.register_cases {r : Registry} (hr : DistinctEntries r.entries) (e : Registration) :
    (DistinctEntries (r.entries ++ [e]) ∧ r.register e = .ok { entries := r.entries ++ [e] }) ∨
    (¬ DistinctEntries (r.entries ++ [e]) ∧ r.register e = .error .duplicateOpcode) := by
  obtain ⟨hbyte, hname⟩ := hr
  simp only [DistinctEntries, nodup_map_concat, Registry.register]
  by_cases htaken : r.entries.any (fun x => x.byte == e.byte || x.name == e.name) = true
  · refine .inr ⟨?_, if_pos htaken⟩
    rintro ⟨⟨-, hb⟩, -, hn⟩
    obtain ⟨x, hx, hxe⟩ := List.any_eq_true.1 htaken
    simp only [Bool.or_eq_true, beq_iff_eq] at hxe
    exact hxe.elim (hb x hx) (hn x hx)
  · refine .inl ⟨?_, if_neg htaken⟩
    simp only [List.any_eq_true, Bool.or_eq_true, beq_iff_eq, not_exists, not_and, not_or] at htaken
    exact ⟨⟨hbyte, fun x hx => (htaken x hx).1⟩, hname, fun x hx => (htaken x hx).2⟩

theorem Registry.registerAll_cases (es : List Registration) {r : Registry} (hr : DistinctEntries r.entries) :
    (DistinctEntries (r.entries ++ es) ∧ r.registerAll es = .ok { entries := r.entries ++ es }) ∨
    (¬ DistinctEntries (r.entries ++ es) ∧ r.registerAll es = .error .duplicateOpcode) := by
  induction es generalizing r with
  | nil => exact .inl (by simpa [Registry.registerAll] using hr)
  | cons e es ih =>
    rw [List.append_cons]
    rcases Registry.register_cases hr e with ⟨hdistinct, hreg⟩ | ⟨hdup, hreg⟩
    · simp only [Registry.registerAll, hreg]
      exact ih hdistinct
    · simp only [Registry.registerAll, hreg]
      exact .inr ⟨fun h => hdup h.of_append, trivial⟩

theorem Registry.build_cases (es : List Registration) :
    (DistinctEntries es ∧ Registry.build es = .ok { entries := es }) ∨
    (¬ DistinctEntries es ∧ Registry.build es = .error .duplicateOpcode) :=
  Registry.registerAll_cases es (r := { entries := [] }) ⟨List.nodup_nil, List.nodup_nil⟩

theorem Registry.build_of_distinct {es : List Registration} (h : DistinctEntries es) :
    Registry.build es = .ok { entries := es } := by
  rcases Registry.build_cases es with ⟨-, hbuild⟩ | ⟨hdup, -⟩
  · exact hbuild
  · exact absurd h hdup

theorem Registry.build_of_duplicate {es : List Registration} (h : ¬ DistinctEntries es) :
    Registry.build es = .error .duplicateOpcode := by
  rcases Registry.build_cases es with ⟨hdistinct, -⟩ | ⟨-, hbuild⟩
  · exact absurd hdistinct h
  · exact hbuild

theorem Registry.distinct_of_wf {r : Registry} (hw : r.wf = true) : DistinctEntries r.entries := by
  obtain ⟨hbyte, hname, -⟩ := Registry.wf_iff.1 hw
  exact ⟨hbyte, hname⟩

theorem Registry.default_wf : Registry.default.wf = true := by decide

/-- Settles O3: construction fails exactly where the entries are not distinct, and a valid configuration's are. -/
theorem duplicateOpcodeCheck : Obligations.DuplicateOpcodeCheck := by
  refine ⟨fun es h => Registry.build_of_duplicate h, fun es hbyte hname => Registry.build_of_distinct ⟨hbyte, hname⟩,
    ⟨rfl, Registry.build_of_distinct (Registry.distinct_of_wf Registry.default_wf)⟩, fun c code cd budget hdup => ?_⟩
  have hwf : c.wf = false :=
    Bool.eq_false_iff.2 fun hw => hdup (Registry.distinct_of_wf (Config.registry_wf hw))
  rw [Machine.startRun, if_pos hwf]

/-! ### The table of R91 -/

/-- A row of the table, read forward and back. -/
theorem Registry.default_row {b : Byte} {o : Op} (h : Registration.of b o ∈ opcodeTable) :
    Registry.default.byteOf o = some b ∧ Registry.default.slot b = .op o :=
  ⟨Registry.byteOf_of_mem Registry.default_wf h, Registry.slot_of_mem Registry.default_wf h⟩

/-- Settles O1: every pair listed is a row of the table. -/
theorem registryHoldsOpcodeTable : Obligations.RegistryHoldsOpcodeTable := by
  refine ⟨fun p hp => Registry.default_row ?plain, fun n => Registry.default_row ?push,
    fun n => Registry.default_row ?dup, fun n => Registry.default_row ?swap⟩
  case plain => revert p; decide
  case push => revert n; decide
  case dup => revert n; decide
  case swap => revert n; decide

/-! ### Unregistered bytes (R96) -/

theorem Registry.slot_eq_invalid_iff {r : Registry} {b : Byte} :
    r.slot b = .invalid ↔ b ∉ r.entries.map (·.byte) := by
  simp only [Registry.slot]
  split
  · next e he =>
    have hbyte : e.byte = b := by simpa using List.find?_some he
    simpa using ⟨e, List.mem_of_find?_eq_some he, hbyte⟩
  · next hnone => simpa using hnone

/-- Consecutive byte values are an interval. -/
theorem exists_ofNat_add_eq_iff {k n : Nat} (hk : k + n ≤ 256) {b : Byte} :
    (∃ i : Fin n, BitVec.ofNat 8 (k + i.val) = b) ↔ k ≤ b.toNat ∧ b.toNat < k + n := by
  constructor
  · rintro ⟨i, rfl⟩
    have := i.isLt
    rw [BitVec.toNat_ofNat]
    omega
  · rintro ⟨hle, hlt⟩
    refine ⟨⟨b.toNat - k, by omega⟩, ?_⟩
    rw [Nat.add_sub_cancel' hle, BitVec.ofNat_toNat, BitVec.setWidth_eq]

theorem mem_pushIndices (n : Fin 32) : n ∈ pushIndices := by revert n; decide

theorem mem_depthIndices (n : Fin 16) : n ∈ depthIndices := by revert n; decide

/-- The values of the bytes that the table of R91 registers. -/
theorem mem_opcodeTable_bytes_iff {b : Byte} : b ∈ opcodeTable.map (·.byte) ↔
    b.toNat ≤ 0x04 ∨ b.toNat = 0x50 ∨ b.toNat = 0x53 ∨ (0x56 ≤ b.toNat ∧ b.toNat ≤ 0x59) ∨ b.toNat = 0x5B ∨
    (0x60 ≤ b.toNat ∧ b.toNat ≤ 0x9F) ∨ b.toNat = 0xF3 := by
  simp only [opcodeTable, Registration.of, List.map_append, List.map_map, List.map_cons, List.map_nil, Function.comp_def,
    List.mem_append, List.mem_map, List.mem_cons, List.not_mem_nil, or_false, mem_pushIndices, mem_depthIndices,
    true_and, exists_ofNat_add_eq_iff (show 0x60 + 32 ≤ 256 by decide),
    exists_ofNat_add_eq_iff (show 0x80 + 16 ≤ 256 by decide), exists_ofNat_add_eq_iff (show 0x90 + 16 ≤ 256 by decide)]
  simp only [← BitVec.toNat_inj, BitVec.reduceToNat, BitVec.ofNat_eq_ofNat]
  omega

/-- The byte values of R96. -/
abbrev UnregisteredValue (n : Nat) : Prop :=
  (0x05 ≤ n ∧ n ≤ 0x4F) ∨ n = 0x51 ∨ n = 0x52 ∨ n = 0x54 ∨ n = 0x55 ∨ n = 0x5A ∨ (0x5C ≤ n ∧ n ≤ 0x5F) ∨
    (0xA0 ≤ n ∧ n ≤ 0xF2) ∨ 0xF4 ≤ n

theorem Registry.default_slot_eq_invalid_iff {b : Byte} :
    Registry.default.slot b = .invalid ↔ UnregisteredValue b.toNat := by
  have := b.isLt
  rw [Registry.slot_eq_invalid_iff, Registry.default, mem_opcodeTable_bytes_iff]
  omega

set_option maxRecDepth 4000 in
theorem count_unregisteredValue :
    ((List.range 256).filter fun n => decide (UnregisteredValue n)).length = 179 := by decide

/-! ### Words written out -/

/-- Settles O5: the decoder evaluated on each word. -/
theorem wordsOfTheTableDecode : Obligations.WordsOfTheTableDecode := by
  refine ⟨?_, ?_, ?_, ?_, ?_, ?_, ?_, ?_, ?_, ?_, ?_, ?_⟩ <;> rfl

end Sys2Proof
end

section
/-! SUPPORT. The jump-destination analysis as the offsets its pass stops at (30_encoding.md R100, R101). -/

namespace Sys2Proof.Machine

theorem isJumpdest_iff {r : Registry} {b : Byte} : r.isJumpdest b = true ↔ r.byteOf .jumpdest = some b := by
  simp [Registry.isJumpdest]

/-- An offset at which the analysis stops and the byte is JUMPDEST_BYTE (R100). -/
def IsJumpDest (r : Registry) (code : List Byte) (t : Nat) : Prop :=
  Boundary r code t ∧ ∃ b, code[t]? = some b ∧ r.byteOf .jumpdest = some b

theorem isJumpDest_of_byte {r : Registry} {code : List Byte} {i : Nat} {op : Byte} (hi : Boundary r code i)
    (hop : code[i]? = some op) : IsJumpDest r code i ↔ r.isJumpdest op = true := by
  rw [isJumpdest_iff]
  constructor
  · rintro ⟨-, b, hb, hjd⟩
    rw [hop] at hb
    exact hjd.trans hb.symm
  · exact fun hjd => ⟨hi, op, hop, hjd⟩

theorem mem_jumpDestsFrom_cons {r : Registry} {i t : Nat} {op : Byte} {rest : List Byte} :
    t ∈ jumpDestsFrom r i 0 (op :: rest) ↔
      (t = i ∧ r.isJumpdest op = true) ∨ t ∈ jumpDestsFrom r (i + 1) (r.operandWidth op) rest := by
  simp only [jumpDestsFrom]
  split <;> simp [*]

/-- The pass from offset `i` on, with `skip` operand bytes still to be stepped over before the next boundary, finds the
jump destinations at that boundary and beyond it. -/
theorem mem_jumpDestsFrom_iff {r : Registry} {code : List Byte} {t i skip : Nat} (hb : Boundary r code (i + skip)) :
    t ∈ jumpDestsFrom r i skip (code.drop i) ↔ i + skip ≤ t ∧ IsJumpDest r code t := by
  induction hrest : code.drop i generalizing i skip with
  | nil =>
    have hlen : code.length ≤ i := List.drop_eq_nil_iff.1 hrest
    simp only [jumpDestsFrom, List.not_mem_nil, false_iff]
    rintro ⟨hle, -, b, hbyte, -⟩
    have := (List.getElem?_eq_some_iff.1 hbyte).1
    omega
  | cons op rest ih =>
    have hrest' : code.drop (i + 1) = rest := by rw [← List.drop_drop, hrest]; rfl
    cases skip with
    | succ skip =>
      have hidx : i + 1 + skip = i + (skip + 1) := by omega
      have := ih (hidx ▸ hb) hrest'
      rwa [hidx] at this
    | zero =>
      have hop : code[i]? = some op := by rw [← List.head?_drop, hrest]; rfl
      rw [mem_jumpDestsFrom_cons, ih (.next i op hb hop) hrest', ← isJumpDest_of_byte hb hop]
      constructor
      · rintro (⟨rfl, ht⟩ | ⟨hle, ht⟩)
        · exact ⟨Nat.le_refl _, ht⟩
        · exact ⟨by omega, ht⟩
      · rintro ⟨hle, ht⟩
        rcases Nat.eq_or_lt_of_le hle with rfl | hlt
        · exact .inl ⟨rfl, ht⟩
        · exact .inr ⟨boundary_gap hb ht.1 hop hlt, ht⟩

/-- Settles O8: the whole pass begins at the boundary 0. -/
theorem jumpDestsCharacterised : Obligations.JumpDestsCharacterised := by
  intro r code t
  have h := mem_jumpDestsFrom_iff (t := t) (i := 0) (skip := 0) (Boundary.zero (r := r) (code := code))
  exact h.trans (and_iff_right (Nat.zero_le t))

theorem boundary_of_mem_jumpDests {r : Registry} {code : List Byte} {t : Nat} (h : t ∈ jumpDests r code) :
    Boundary r code t :=
  ((jumpDestsCharacterised r code t).1 h).1

/-- Settles O9: a member is a boundary that holds JUMPDEST_BYTE, and no boundary lies inside another's operand bytes;
JDS is read-only state that is computed from the code. -/
theorem jumpDestMembers : Obligations.JumpDestMembers := by
  refine ⟨fun r code i hi => ?_, fun r code i j b hb hop hlt hle hj => ?_, fun _ _ _ _ _ _ => rfl,
    fun s t hstep hnf => ?_⟩
  · obtain ⟨-, hbyte⟩ := (jumpDestsCharacterised r code i).1 hi
    exact ⟨lt_length_of_mem_jumpDests hi, hbyte⟩
  · have := boundary_gap hb (boundary_of_mem_jumpDests hj) hop hlt
    omega
  · obtain ⟨-, -, hjds, -⟩ := readOnlyStateIsConstant s t hstep hnf
    exact hjds

end Sys2Proof.Machine
end

section
/-! SUPPORT. The decode-execute loop (30_encoding.md R103, R110, R111): what a step is for each thing that `fetch` finds,
where it leaves pc, and what it does to the budget. -/

namespace Sys2Proof.Machine

/-! ### What fetch finds -/

theorem fetch_negativePc {s : State} (h : s.pc < 0) : fetch s = .negativePc := by
  simp only [fetch, if_pos h]

theorem fetch_of_decode {s : State} {i : Instr} (h0 : 0 ≤ s.pc)
    (h : decode s.config.registry (s.code.drop s.pc.toNat) = .instr i) : fetch s = .instr i := by
  simp only [fetch, if_neg (Int.not_lt.2 h0), h]

theorem fetch_implicitStop {s : State} (h : (s.code.length : Int) ≤ s.pc) : fetch s = .implicitStop := by
  have hdrop : s.code.drop s.pc.toNat = [] := List.drop_eq_nil_of_le (by omega)
  simp only [fetch, if_neg (show ¬ s.pc < 0 by omega), hdrop, decode]

theorem drop_of_getElem? {code : List Byte} {p : Nat} {op : Byte} (h : code[p]? = some op) :
    code.drop p = op :: code.drop (p + 1) := by
  obtain ⟨hlt, rfl⟩ := List.getElem?_eq_some_iff.1 h
  exact List.drop_eq_getElem_cons hlt

theorem fetch_unknown {s : State} {op : Byte} (h0 : 0 ≤ s.pc) (hop : s.code[s.pc.toNat]? = some op)
    (hslot : s.config.registry.slot op = .invalid) : fetch s = .unknown op := by
  simp only [fetch, if_neg (Int.not_lt.2 h0), drop_of_getElem? hop, decode_cons, hslot]

theorem fetch_of_slot {s : State} {op : Byte} {o : Op} (h0 : 0 ≤ s.pc) (hop : s.code[s.pc.toNat]? = some op)
    (hslot : s.config.registry.slot op = .op o) :
    fetch s = .instr (o.toInstr (immRead s.code (s.pc.toNat + 1) o.immWidth)) := by
  apply fetch_of_decode h0
  rw [drop_of_getElem? hop, decode_of_slot hslot]
  simp only [immRead, List.drop_zero]

/-! ### The step, by what fetch finds -/

/-- Spending budget does not change what is decoded. -/
theorem fetch_withBudget (s : State) (b : Bound) : fetch (s.withBudget b) = fetch s := rfl

theorem step_of_fetch_negativePc {s : State} (h : Steps s) (hf : fetch s = .negativePc) :
    step s = .next ((s.withBudget s.budget.pred).takeFault .invalidCodeOffset none s.pc none) := by
  simp only [step_running h, decodeAndExecute, fetch_withBudget, hf, mapNext_next, stoppedStatus_takeFault,
    State.withBudget_pc]

theorem step_of_fetch_implicitStop {s : State} (h : Steps s) (hf : fetch s = .implicitStop) :
    step s = mapNext stoppedStatus (exec .stop (s.withBudget s.budget.pred)) := by
  simp only [step_running h, decodeAndExecute, fetch_withBudget, hf]

theorem step_of_fetch_unknown {s : State} {op : Byte} (h : Steps s) (hf : fetch s = .unknown op) :
    step s = .next ((entered s).takeFault .unknownOpcode (some op) s.pc none) := by
  simp only [step_running h, decodeAndExecute, fetch_withBudget, hf, mapNext_next, stoppedStatus_takeFault,
    State.withBudget_pc]

theorem step_of_fetch_instr {s : State} {i : Instr} (h : Steps s) (hf : fetch s = .instr i) :
    step s = mapNext stoppedStatus (exec i (entered s)) := by
  simp only [step_running h, decodeAndExecute, fetch_withBudget, hf, State.withBudget_pc]

theorem stepRaises_unknownOpcode {s : State} {op : Byte} (h : Steps s) (h0 : 0 ≤ s.pc)
    (hop : s.code[s.pc.toNat]? = some op) (hslot : s.config.registry.slot op = .invalid) :
    StepRaises s .unknownOpcode (some op) none :=
  ⟨_, step_of_fetch_unknown h (fetch_unknown h0 hop hslot), rfl, rfl, rfl⟩

/-- Settles O12: one case of `fetch` for each clause. -/
theorem stepFollowsTheLoop : Obligations.StepFollowsTheLoop :=
  ⟨fun _ h hpc => ⟨_, step_of_fetch_negativePc h (fetch_negativePc hpc), rfl, rfl, rfl⟩,
    fun _ h hpc => step_of_fetch_implicitStop h (fetch_implicitStop hpc),
    fun _ _ h h0 hop hslot => stepRaises_unknownOpcode h h0 hop hslot,
    fun _ _ _ h h0 hop hslot => step_of_fetch_instr h (fetch_of_slot h0 hop hslot)⟩

/-- Settles O11: what the code from pc on decodes to is what `fetch` finds there. -/
theorem stepRunsDecodedInstruction : Obligations.StepRunsDecodedInstruction :=
  fun _ _ h h0 hdec => step_of_fetch_instr h (fetch_of_decode h0 hdec)

/-- Settles O2: the bytes that no row of the table has, and the case of `fetch` for one of them. -/
theorem unregisteredBytesFault : Obligations.UnregisteredBytesFault := by
  refine ⟨fun b => ?_, ?_, fun s b hreg h h0 hop hslot => stepRaises_unknownOpcode h h0 hop (hreg ▸ hslot)⟩
  · rw [Registry.default_slot_eq_invalid_iff]
    simp only [BitVec.le_def, ← BitVec.toNat_inj]
    rfl
  · rw [← count_unregisteredValue]
    refine congrArg List.length (List.filter_congr fun n hn => ?_)
    have hmod : n % 2 ^ 8 = n := Nat.mod_eq_of_lt (List.mem_range.1 hn)
    simp only [Registry.default_slot_eq_invalid_iff, BitVec.toNat_ofNat, hmod]

/-! ### The budget (R46, R110) -/

@[simp] theorem stoppedStatus_budget (s : State) : (stoppedStatus s).budget = s.budget := by
  obtain ⟨st, h⟩ := stoppedStatus_eq s; rw [h]; rfl

/-- A step that decodes spends one of the budget. -/
theorem Stepped.budget {s t : State} (h : Stepped s t) (hnf : t.status ≠ .faulted) : t.budget = s.budget.pred := by
  cases h with
  | implicitStop => rfl
  | ran op o t _ _ _ _ hr =>
    obtain ⟨-, -, -, -, -, -, hbudget⟩ := hr.unwritten
    rw [stoppedStatus_budget, hbudget]
    rfl
  | negativePc | unknown | raised => exact absurd rfl hnf

theorem step_budget {s t : State} (hb : s.budget.isZero = false) (hstep : step s = .next t)
    (hnf : t.status ≠ .faulted) : t.budget = s.budget.pred := by
  obtain ⟨-, ⟨hzero, -⟩ | ⟨-, ht⟩⟩ := step_cases hstep
  · exact absurd (hb.symm.trans hzero) Bool.false_ne_true
  · exact ht.budget hnf

/-- Settles O13: a used-up budget suspends, any other is spent by one, and an ended run has no step. -/
theorem budgetCheckedFirst : Obligations.BudgetCheckedFirst := by
  refine ⟨fun s hrun hb => step_suspends hrun (by rw [hb]; rfl), fun s t n _ hb hstep hnf => ?_,
    fun s t _ hb hstep hnf => ?_, fun s hne => step_ended hne⟩
  · rw [step_budget (by rw [hb]; rfl) hstep hnf, hb]
    rfl
  · rw [step_budget (by rw [hb]; rfl) hstep hnf, hb]
    rfl

/-! ### The program counter (R103, R150, R243) -/

@[simp] theorem stoppedStatus_pc (s : State) : (stoppedStatus s).pc = s.pc := by
  obtain ⟨st, h⟩ := stoppedStatus_eq s; rw [h]; rfl

/-- A completed instruction leaves pc past its immediate, or at the jump destination on top of the stack. -/
theorem Ran.pc_cases {o : Op} {s t : State} (h : Ran o s t) :
    (t.pc = s.pc + o.immWidth ∧ o ≠ .jump) ∨
    ((o = .jump ∨ o = .jumpi) ∧ ∃ w, s.stack.head? = some w ∧ w.toNat ∈ s.jds ∧ t.pc = w.toNat) := by
  cases h with
  | stackAndPc _ _ _ _ hp => exact hp
  | store _ _ _ ho | stop ho | ret _ _ _ ho => exact .inl ⟨by simp [ho, Op.immWidth], by simp [ho]⟩

/-- A completed instruction at a boundary leaves pc on one: the next, or a jump destination. -/
theorem Ran.pc_boundary {s t : State} {op : Byte} {o : Op} (hr : Ran o (entered s) t) (hc : ContextInv s)
    (hb : Boundary s.config.registry s.code s.pc.toNat) (hop : s.code[s.pc.toNat]? = some op)
    (hslot : s.config.registry.slot op = .op o) : 0 ≤ t.pc ∧ Boundary s.config.registry s.code t.pc.toNat := by
  have h0 := hc.pcNonneg
  rcases hr.pc_cases with ⟨hpc, -⟩ | ⟨-, w, -, hw, hpc⟩
  · have hnext := Boundary.next _ op hb hop
    rw [Registry.operandWidth_of_slot (Config.registry_wf hc.configWf) hslot] at hnext
    have htoNat : t.pc.toNat = s.pc.toNat + 1 + o.immWidth := by rw [hpc, State.withPc_pc]; omega
    exact ⟨by rw [hpc, State.withPc_pc]; omega, htoNat ▸ hnext⟩
  · have hmem : w.toNat ∈ jumpDests s.config.registry s.code := hc.jdsOfCode ▸ hw
    rw [hpc, Int.toNat_natCast]
    exact ⟨Int.natCast_nonneg _, boundary_of_mem_jumpDests hmem⟩

theorem Stepped.pcOnBoundary {s t : State} (ht : Stepped s t) (hc : ContextInv s)
    (hb : Boundary s.config.registry s.code s.pc.toNat) : PcOnBoundary t := by
  intro hnf
  cases ht with
  | implicitStop => exact ⟨hc.pcNonneg, hb⟩
  | ran op o t _ hop hslot _ hr =>
    obtain ⟨hconfig, hcode, -⟩ := hr.unwritten
    simp only [stoppedStatus_pc, stoppedStatus_config, stoppedStatus_code, hconfig, hcode]
    exact hr.pc_boundary hc hb hop hslot
  | negativePc | unknown | raised => exact absurd rfl hnf

/-- Settles O10: suspending leaves pc as it is, and the shapes of a step that decodes leave it on a boundary. -/
theorem stepKeepsPcOnBoundary : Obligations.StepKeepsPcOnBoundary := by
  refine ⟨fun c code cd budget _ => ⟨Int.le_refl 0, .zero⟩, fun s t hinv hpc hstep => ?_⟩
  obtain ⟨hrun, ⟨-, rfl⟩ | ⟨-, ht⟩⟩ := step_cases hstep
  · exact fun _ => hpc (by simp [hrun])
  · obtain ⟨-, -, hc⟩ := hinv.running hrun
    obtain ⟨-, hb⟩ := hpc (by simp [hrun])
    exact ht.pcOnBoundary hc hb

end Sys2Proof.Machine
end

section
/-! SUPPORT. ADD, SUB, MUL and DIV (40_arithmetic.md): the exact integer results of R135 are the values of Word
operations, so `BinOp` (R130) replaces two operands by a Word and completes whatever they are. -/

namespace Sys2Proof.Machine

/-! ### Instructions of one byte (R90, R91) -/

/-- An instruction without an immediate is encoded as the byte of its row of the table. -/
theorem encode_default_of_row {i : Instr} {b : Byte} (h : Registration.of b i.op ∈ opcodeTable)
    (hw : i.op.immWidth = 0) : encode Registry.default i = [b] := by
  obtain ⟨hbyte, -⟩ := Registry.default_row h
  simp only [encode, hbyte, hw, beBytes]

/-! ### The operations on Words (R131 to R135) -/

/-- The exact operation `f` of the pseudocode has the value of the Word operation `w`, on any two Words. -/
def ComputesWord (f : Int → Int → Int) (w : Word → Word → Word) : Prop :=
  ∀ l r : Word, f l.toNat r.toNat = ((w l r).toNat : Int)

theorem addWords_computes : ComputesWord addWords (· + ·) := by
  intro l r
  rw [BitVec.toNat_add]
  rfl

theorem subWords_computes : ComputesWord subWords (· - ·) := by
  intro l r
  have hr := r.isLt
  simp only [subWords, BitVec.toNat_sub, wordModulus_cast]
  omega

theorem mulWords_computes : ComputesWord mulWords (· * ·) := by
  intro l r
  rw [BitVec.toNat_mul]
  rfl

/-- The quotient by 0 is 0 for Words as it is in R134. -/
theorem divWords_computes : ComputesWord divWords (· / ·) := by
  intro l r
  simp only [divWords, BitVec.toNat_udiv]
  split
  next h0 => simp [h0]
  next => rfl

/-- A commutative operation does not depend on OPERAND_ORDER (R130). -/
theorem orderOperands_of_comm {w : Word → Word → Word} (hw : ∀ l r, w l r = w r l) (order : OperandOrder) (a b : Word) :
    w (orderOperands order a b).1 (orderOperands order a b).2 = w b a := by
  cases order with
  | deepLeft => rfl
  | topLeft => exact hw a b

/-! ### The template BinOp (R130) -/

/-- Two operands are replaced by the Word that the operation computes: no operand values raise a fault. -/
theorem exec_binOp {i : Instr} {f : Int → Int → Int} {w : Word → Word → Word} {s : State} {a b v : Word}
    {rest : List Word} (hbody : opBody i.op i.imm = binOp f) (hf : ComputesWord f w) (h : s.stack = a :: b :: rest)
    (hd : s.stack.length ≤ stackLimit)
    (hv : w (orderOperands s.config.operandOrder a b).1 (orderOperands s.config.operandOrder a b).2 = v) :
    exec i s = .next { s with stack := v :: rest } := by
  have hword : ∀ l r : Word, 0 ≤ f l.toNat r.toNat ∧ f l.toNat r.toNat < (wordModulus : Int) := fun l r => by
    rw [hf l r]
    exact ⟨Int.natCast_nonneg _, Int.ofNat_lt.2 (w l r).isLt⟩
  apply exec_of_body_ok
  rw [hbody, binOp_ok h hd hword, hf, hv, ofInt_natCast, BitVec.ofNat_toNat, BitVec.setWidth_eq]
  rfl

/-- With fewer than two operands a pop of the template faults (R130, R136). -/
theorem raisesFault_binOp {i : Instr} {f : Int → Int → Int} {s : State} (hbody : opBody i.op i.imm = binOp f)
    (h : s.stack.length < 2) : RaisesFault i s .stackUnderflow none :=
  ⟨_, exec_of_body_raise ((congrFun hbody s).trans (binOp_underflow h)), rfl, rfl, rfl⟩

/-! ### The four instructions -/

theorem add_eq_ofNat (l r : Word) : l + r = BitVec.ofNat 256 ((l.toNat + r.toNat) % 2 ^ 256) := by
  rw [← BitVec.toNat_add, BitVec.ofNat_toNat, BitVec.setWidth_eq]

/-- Settles O28: the sum of two Words, in whichever order they are taken. -/
theorem addResult : Obligations.AddResult :=
  ⟨encode_default_of_row (by decide) rfl,
    fun _ a b _ h hd => exec_binOp rfl addWords_computes h hd
      ((orderOperands_of_comm BitVec.add_comm _ a b).trans (add_eq_ofNat b a)),
    fun _ => raisesFault_binOp rfl⟩

theorem mul_eq_ofNat (l r : Word) : l * r = BitVec.ofNat 256 ((l.toNat * r.toNat) % 2 ^ 256) := by
  rw [← BitVec.toNat_mul, BitVec.ofNat_toNat, BitVec.setWidth_eq]

/-- Settles O30: the product of two Words, in whichever order they are taken. -/
theorem mulResult : Obligations.MulResult :=
  ⟨encode_default_of_row (by decide) rfl,
    fun _ a b _ h hd => exec_binOp rfl mulWords_computes h hd
      ((orderOperands_of_comm BitVec.mul_comm _ a b).trans (mul_eq_ofNat b a)),
    fun _ => raisesFault_binOp rfl⟩

theorem sub_eq_ofNat (l r : Word) : l - r = BitVec.ofNat 256 ((2 ^ 256 + l.toNat - r.toNat) % 2 ^ 256) := by
  have hr := r.isLt
  apply BitVec.eq_of_toNat_eq
  rw [BitVec.toNat_sub, BitVec.toNat_ofNat]
  omega

/-- Settles O29: each OPERAND_ORDER takes the two operands as its difference names them. -/
theorem subResult : Obligations.SubResult := by
  refine ⟨encode_default_of_row (by decide) rfl,
    fun s a b rest h hd => exec_binOp rfl subWords_computes h hd ?_, fun _ => raisesFault_binOp rfl⟩
  cases s.config.operandOrder with
  | deepLeft => exact sub_eq_ofNat b a
  | topLeft => exact sub_eq_ofNat a b

theorem div_eq_ite (l r : Word) : l / r = if r = 0 then 0 else BitVec.ofNat 256 (l.toNat / r.toNat) := by
  split
  next h0 => rw [h0]; exact BitVec.udiv_zero
  next => exact BitVec.udiv_def

/-- Settles O31: each OPERAND_ORDER takes the two operands as its quotient names them, the divisor 0 included. -/
theorem divResult : Obligations.DivResult := by
  refine ⟨encode_default_of_row (by decide) rfl,
    fun s a b rest h hd => exec_binOp rfl divWords_computes h hd ?_, fun _ => raisesFault_binOp rfl⟩
  cases s.config.operandOrder with
  | deepLeft => exact div_eq_ite b a
  | topLeft => exact div_eq_ite a b

end Sys2Proof.Machine
end

section
/-! SUPPORT. PUSHn, DUPn, SWAPn and POP (41_stack_ops.md R150, R183, R200, R220), and the stack discipline law (R221). -/

namespace Sys2Proof.Machine

/-! ### Sequences of pushes and pops (R221) -/

/-- Pushing within the depth limit puts the words on the stack, the last one on top. -/
theorem pushAll_ok {ws : List Word} {s : State} (hd : s.stack.length + ws.length ≤ stackLimit) :
    pushAll ws s = .ok () (s.withStack (ws.reverse ++ s.stack)) := by
  induction ws generalizing s with
  | nil => rfl
  | cons w ws ih =>
    simp only [List.length_cons] at hd
    have hrest : (s.withStack (w :: s.stack)).stack.length + ws.length ≤ stackLimit := by
      simp only [State.withStack_stack, List.length_cons]
      omega
    rw [pushAll, push_word (by omega), Prim.andThen_ok, ih hrest, List.reverse_cons, List.append_assoc]
    rfl

/-- Popping takes the words from the top of the stack in their order. -/
theorem popMany_ok {ws rest : List Word} {s : State} (h : s.stack = ws ++ rest) :
    popMany ws.length s = .ok ws (s.withStack rest) := by
  induction ws generalizing s with
  | nil =>
    rw [List.nil_append] at h
    rw [← h]
    rfl
  | cons w ws ih =>
    rw [List.length_cons, popMany, pop_cons h, Prim.andThen_ok, ih rfl]
    rfl

/-- Settles O22: the pushes put the reversed words on top of the stack, where as many pops find them. -/
theorem stackDiscipline : Obligations.StackDiscipline := by
  intro ws s hd
  refine ⟨_, pushAll_ok hd, ?_⟩
  rw [← List.length_reverse (as := ws), popMany_ok rfl]
  rfl

/-! ### Faults of an instruction and of its step (R273, R277) -/

/-- An instruction faults where the pseudocode of its kind raises. -/
theorem raisesFault_of_body {i : Instr} {body : State → Prim Unit} {s t : State} {k : FaultKind} {tg : Option Word}
    (hbody : opBody i.op i.imm = body) (h : body s = .raise k tg t) (ht : t.stopped = s.stopped) :
    RaisesFault i s k tg :=
  ⟨_, exec_of_body_raise ((congrFun hbody s).trans h), rfl, ht, rfl⟩

theorem stoppedStatus_of_faulted {s : State} (h : s.status = .faulted) : stoppedStatus s = s :=
  if_neg fun hc => Status.noConfusion (h.symm.trans hc.1)

/-- A step faults as the instruction it decodes does. -/
theorem stepRaises_of_raisesFault {s : State} {i : Instr} {k : FaultKind} {tg : Option Word} (h : Steps s)
    (hf : fetch s = .instr i) (hr : RaisesFault i (entered s) k tg) :
    StepRaises s k (s.config.registry.byteOf i.op) tg := by
  obtain ⟨t, hex, hstatus, hstopped, hfault⟩ := hr
  refine ⟨t, ?_, hstatus, hstopped, ?_⟩
  · rw [step_of_fetch_instr h hf, hex, mapNext_next, stoppedStatus_of_faulted hstatus]
  · simpa using hfault

/-! ### PUSHn (R150) -/

theorem opBody_pushInstr (n : Fin 32) (imm : Word) :
    opBody (pushInstr n imm).op (pushInstr n imm).imm = pushBody n imm := by
  rw [pushInstr_op, pushInstr_imm]; rfl

/-- Settles O32: pc moves past the immediate, and then a Word is pushed, which can only overflow. -/
theorem pushResult : Obligations.PushResult := by
  refine fun n imm s => ⟨fun hd => ?_, fun hd => ?_⟩
  · rw [exec_pushInstr]
    exact runInstr_ok (push_word hd)
  · exact raisesFault_of_body (opBody_pushInstr n imm) (push_overflow (Nat.lt_succ_of_le hd)) rfl

/-- Settles O33: the step executes the PUSHn that `fetch` finds, whose immediate is the bytes of the code present. -/
theorem pushStep : Obligations.PushStep := by
  intro s op n hwf h hstopped h0 hop hslot
  have hfetch := fetch_of_slot h0 hop hslot
  obtain ⟨hpush, hoverflow⟩ := pushResult n (immRead s.code (s.pc.toNat + 1) (n.val + 1)) (entered s)
  refine ⟨fun hd => ?_, fun hd => ?_⟩
  · rw [step_of_fetch_instr h hfetch]
    exact (congrArg (mapNext stoppedStatus) (hpush hd)).trans
      (congrArg Host.Outcome.next (stoppedStatus_of_not_stopped hstopped))
  · have hbyte : s.config.registry.byteOf (.push n) = some op := (Registry.slot_eq_op_iff hwf).1 hslot
    have hraise := stepRaises_of_raisesFault h hfetch (hoverflow hd)
    rwa [toInstr_op, hbyte] at hraise

/-! ### DUPn (R183) -/

theorem opBody_dupInstr (n : Fin 16) : opBody (dupInstr n).op (dupInstr n).imm = dupBody n := by
  rw [dupInstr_op]; rfl

theorem dupBody_ok {n : Fin 16} {s : State} (h : n.val < s.stack.length) (hd : s.stack.length < stackLimit) :
    dupBody n s = .ok () (s.withStack (s.stack[n.val] :: s.stack)) := by
  rw [dupBody, peek_ok h, Prim.andThen_ok, push_word hd]

theorem dupBody_underflow {n : Fin 16} {s : State} (h : s.stack.length ≤ n.val) :
    dupBody n s = .raise .stackUnderflow none s := by
  rw [dupBody, peek_underflow h, Prim.andThen_raise]

/-- A full stack is deep enough for every DUPn, so that the push raises. -/
theorem dupBody_overflow {n : Fin 16} {s : State} (h : s.stack.length = stackLimit) :
    dupBody n s = .raise .stackOverflow none s := by
  have hn : n.val < s.stack.length := h ▸ n.isLt.trans (by decide)
  rw [dupBody, peek_ok hn, Prim.andThen_ok, push_overflow (by omega)]

/-- Settles O34: `Peek` and then the push of a Word, each of which completes or raises by the depth alone. -/
theorem dupResult : Obligations.DupResult := by
  refine fun n s => ⟨fun h hd => ?_, fun h => ?_, fun h => ?_⟩
  · rw [exec_dupInstr]
    exact runInstr_ok (dupBody_ok h hd)
  · have hraise : dupBody n s = .raise .stackUnderflow none s := dupBody_underflow (Nat.le_of_lt_succ h)
    exact ⟨raisesFault_of_body (opBody_dupInstr n) hraise rfl, hraise⟩
  · have hraise : dupBody n s = .raise .stackOverflow none s := dupBody_overflow h
    exact ⟨raisesFault_of_body (opBody_dupInstr n) hraise rfl, hraise⟩

/-! ### SWAPn (R200) -/

theorem opBody_swapInstr (n : Fin 16) : opBody (swapInstr n).op (swapInstr n).imm = swapBody n := by
  rw [swapInstr_op]; rfl

/-- Exchanging the same two elements again restores the stack: each element stands where it stood. -/
theorem swap_swap {n : Nat} {s t : State} (h1 : 1 ≤ n) (hn : n + 1 ≤ s.stack.length) (h : swap n s = .ok () t) :
    swap n t = .ok () s := by
  obtain ⟨-, -, -, -, -, hswap⟩ := popPeekSwapPrimitives
  obtain ⟨st, hst, hlen, htop, hdeep, hother⟩ := hswap n s h1 hn
  obtain rfl : t = { s with stack := st } := by rw [h] at hst; cases hst; rfl
  obtain ⟨st', hst', -, htop', hdeep', hother'⟩ := hswap n { s with stack := st } h1 (hn.trans hlen.ge)
  have hrestored : st' = s.stack := by
    refine List.ext_getElem? fun i => ?_
    rcases eq_or_ne i 0 with rfl | hi0
    · exact htop'.trans hdeep
    · rcases eq_or_ne i n with rfl | hin
      · exact hdeep'.trans htop
      · exact (hother' i hi0 hin).trans (hother i hi0 hin)
  rw [hst', hrestored]

/-- Settles O35: the `Swap` primitive exchanges the two elements, and a second one exchanges them back. -/
theorem swapResult : Obligations.SwapResult := by
  refine fun n s => ⟨fun hn => ?_, fun hn => ?_⟩
  · obtain ⟨-, -, -, -, -, hswap⟩ := popPeekSwapPrimitives
    have h1 : 1 ≤ n.val + 1 := Nat.le_add_left 1 n.val
    obtain ⟨st, hst, hlen, htop, hdeep, hother⟩ := hswap (n.val + 1) s h1 hn
    simp only [exec_swapInstr]
    exact ⟨st, runInstr_ok hst, hlen, htop, hdeep, hother, runInstr_ok (swap_swap h1 hn hst)⟩
  · have hraise : swapBody n s = .raise .stackUnderflow none s := swap_underflow (Nat.le_of_lt_succ hn)
    exact ⟨raisesFault_of_body (opBody_swapInstr n) hraise rfl, hraise⟩

/-! ### POP (R220) -/

theorem opBody_pop_ok {s : State} {w : Word} {rest : List Word} (imm : Word) (h : s.stack = w :: rest) :
    opBody .pop imm s = .ok () (s.withStack rest) := by
  simp only [opBody, pop_cons h, Prim.andThen_ok]

theorem opBody_pop_underflow {s : State} (imm : Word) (h : s.stack = []) :
    opBody .pop imm s = .raise .stackUnderflow none s := by
  simp only [opBody, pop_nil h, Prim.andThen_raise]

/-- Settles O36: the `Pop` primitive, whose value goes nowhere. -/
theorem popResult : Obligations.PopResult :=
  ⟨encode_default_of_row (by decide) rfl, fun _ _ _ h => exec_of_body_ok (i := .pop) (opBody_pop_ok _ h),
    fun _ h => ⟨raisesFault_of_body (i := .pop) rfl (opBody_pop_underflow _ h) rfl, pop_nil h⟩⟩

end Sys2Proof.Machine
end

section
/-! SUPPORT. MSTORE8 and MSIZE (42_memory_ops.md R230, R231). -/

namespace Sys2Proof.Machine

/-! ### MSTORE8 (R230) -/

/-- On two operands MSTORE8 is the store of the value's low byte. -/
theorem mstore8Body_eq_memWrite {s : State} {off val : Word} {rest : List Word} (h : s.stack = off :: val :: rest) :
    mstore8Body s = memWrite off.toNat (BitVec.ofNat 8 (val.toNat % 256)).toNat (s.withStack rest) := by
  rw [mstore8Body, popTwo_ok h, Prim.andThen_ok, lowByte_toNat]

theorem mstore8Body_underflow {s : State} (h : s.stack.length < 2) :
    mstore8Body s = .raise .stackUnderflow none (s.withStack []) := by
  rw [mstore8Body, popTwo_underflow h, Prim.andThen_raise]

/-- Settles O37: after its two pops MSTORE8 is a store of one byte, whose offset and value are in range, so that only
MEM_LIMIT can stop it. -/
theorem mstore8Result : Obligations.Mstore8Result := by
  refine ⟨encode_default_of_row (by decide) rfl, fun s off val rest h hwf hl => ?_, fun s h => ?_,
    fun s off val rest h hlt hl => ⟨?_, ?_⟩, fun s h => pop_nil h⟩
  · obtain ⟨-, -, -, hstore⟩ := memWriteStoresOneByte
    obtain ⟨m, hm, -, hlen, -, hsame, hother⟩ :=
      hstore off.toNat (BitVec.ofNat 8 (val.toNat % 256)) (s.withStack rest) hwf hl
    exact ⟨m, exec_of_body_ok (i := .mstore8) ((mstore8Body_eq_memWrite h).trans hm), hlen, hsame, hother⟩
  · exact raisesFault_of_body (i := .mstore8) rfl (mstore8Body_underflow h) rfl
  · have hraise := (mstore8Body_eq_memWrite h).trans (memWrite_limit (s := s.withStack rest) hlt hl)
    exact raisesFault_of_body (i := .mstore8) rfl hraise rfl
  · rw [← lowByte_toNat]
    exact memWrite_limit hlt hl

/-! ### MSIZE (R231) -/

/-- Pushing a natural number below 2^256 can only overflow. -/
theorem push_natCast {n : Nat} {s : State} (hd : s.stack.length + 1 ≤ stackLimit) (hn : n < 2 ^ 256) :
    push n s = .ok () (s.withStack (BitVec.ofNat 256 n :: s.stack)) := by
  rw [push_ok hd (Int.natCast_nonneg n) (Int.ofNat_lt.2 hn), ofInt_natCast]

/-- Only a store into the last 32 bytes of the Word offsets expands memory to 2^256 (R61). -/
theorem expandLen_eq_wordModulus_iff {k : Nat} (hk : k < 2 ^ 256) : expandLen k = 2 ^ 256 ↔ 2 ^ 256 - 32 ≤ k := by
  constructor
  · intro h
    by_contra hlt
    have hle : expandLen k ≤ 2 ^ 256 - 32 := expandLen_le (by decide) (Nat.lt_of_not_le hlt)
    omega
  · intro h
    have hmax : memGranule * 2 ^ 251 = 2 ^ 256 := by decide
    exact (expandLen_eq (q := 2 ^ 251) (by rw [hmax, memGranule]; omega) (by rw [hmax]; omega)).trans hmax

/-- Settles O38: MSIZE is the push of MLEN, whose three cases are those of `push`; MLEN = 2^256 is the first length
that is no Word. -/
theorem msizeResult : Obligations.MsizeResult := by
  refine ⟨encode_default_of_row (by decide) rfl,
    fun s hd hlen => exec_of_body_ok (i := .msize) (push_natCast hd hlen),
    fun s hd => raisesFault_of_body (i := .msize) rfl (push_overflow (Nat.lt_succ_of_le hd.ge)) rfl,
    fun s hd hlen => ?_, fun off => expandLen_eq_wordModulus_iff off.isLt⟩
  have hbad : (wordModulus : Int) ≤ activeWords s := Int.ofNat_le.2 hlen.ge
  exact raisesFault_of_body (i := .msize) rfl (push_badItem hd (.inr hbad)) rfl

end Sys2Proof.Machine
end

section
/-! SUPPORT. JUMP, JUMPI, JUMPDEST and PC (43_control.md R240, R241, R244, R245), and that no other instruction
transfers control (R243). -/

namespace Sys2Proof.Machine

/-! ### JUMP (R240) -/

/-- With a target on the stack JUMP is the validated jump to it, the target popped. -/
theorem opBody_jump_eq_jumpTo {s : State} {t : Word} {rest : List Word} (imm : Word) (h : s.stack = t :: rest) :
    opBody .jump imm s = jumpTo t (s.withStack rest) := by
  simp only [opBody, pop_cons h, Prim.andThen_ok]

theorem opBody_jump_underflow {s : State} (imm : Word) (h : s.stack = []) :
    opBody .jump imm s = .raise .stackUnderflow none s := by
  simp only [opBody, pop_nil h, Prim.andThen_raise]

/-- Settles O39: after its pop JUMP is `JumpTo`, which completes or raises by the membership in JDS alone. -/
theorem jumpResult : Obligations.JumpResult := by
  refine ⟨encode_default_of_row (by decide) rfl, fun s t rest h ht => ?_, fun s t rest h ht => ?_,
    fun s h => ⟨?_, pop_nil h⟩⟩
  · exact exec_of_body_ok (i := .jump) ((opBody_jump_eq_jumpTo _ h).trans (jumpTo_ok (s := s.withStack rest) ht))
  · have hraise := (opBody_jump_eq_jumpTo Instr.jump.imm h).trans (jumpTo_bad (s := s.withStack rest) ht)
    exact raisesFault_of_body (i := .jump) rfl hraise rfl
  · exact raisesFault_of_body (i := .jump) rfl (opBody_jump_underflow _ h) rfl

/-! ### JUMPI (R241) -/

/-- A condition that is not 0 makes JUMPI the validated jump to its target. -/
theorem jumpiBody_eq_jumpTo {s : State} {t c : Word} {rest : List Word} (h : s.stack = t :: c :: rest) (hc : c ≠ 0) :
    jumpiBody s = jumpTo t (s.withStack rest) := by
  rw [jumpiBody, popTwo_ok h, Prim.andThen_ok, if_pos hc]

/-- With the condition 0 the target is not looked at. -/
theorem jumpiBody_fallThrough {s : State} {t : Word} {rest : List Word} (h : s.stack = t :: 0 :: rest) :
    jumpiBody s = .ok () (s.withStack rest) := by
  rw [jumpiBody, popTwo_ok h, Prim.andThen_ok, if_neg (not_not_intro rfl)]

theorem jumpiBody_underflow {s : State} (h : s.stack.length < 2) :
    jumpiBody s = .raise .stackUnderflow none (s.withStack []) := by
  rw [jumpiBody, popTwo_underflow h, Prim.andThen_raise]

/-- Settles O40: after its two pops JUMPI falls through, or is `JumpTo`, by its condition. -/
theorem jumpiResult : Obligations.JumpiResult := by
  refine ⟨encode_default_of_row (by decide) rfl, fun s t rest h => ?_, fun s t c rest h hc ht => ?_,
    fun s t c rest h hc ht => ?_, fun s h => ?_⟩
  · exact exec_of_body_ok (i := .jumpi) (jumpiBody_fallThrough h)
  · exact exec_of_body_ok (i := .jumpi) ((jumpiBody_eq_jumpTo h hc).trans (jumpTo_ok (s := s.withStack rest) ht))
  · have hraise := (jumpiBody_eq_jumpTo h hc).trans (jumpTo_bad (s := s.withStack rest) ht)
    exact raisesFault_of_body (i := .jumpi) rfl hraise rfl
  · exact raisesFault_of_body (i := .jumpi) rfl (jumpiBody_underflow h) rfl

/-! ### JUMPDEST (R244) -/

/-- Settles O41: the analysis looks for the byte of JUMPDEST's row of the table, and its pseudocode is empty. -/
theorem jumpdestResult : Obligations.JumpdestResult := by
  refine ⟨encode_default_of_row (by decide) rfl, fun b => ?_, fun s => exec_of_body_ok (i := .jumpdest) rfl⟩
  have hrow : Registration.of 0x5B .jumpdest ∈ opcodeTable := by decide
  obtain ⟨hbyte, -⟩ := Registry.default_row hrow
  rw [isJumpdest_iff, hbyte, Option.some_inj, eq_comm]

/-! ### PC (R245) -/

/-- Settles O42: PC is the push of pc − 1, the offset of its own opcode byte, which as a Word can only overflow. -/
theorem pcResult : Obligations.PcResult := by
  refine ⟨encode_default_of_row (by decide) rfl, fun s opc hpc hopc hd => ?_, fun s hd => ?_⟩
  · have hoffset : s.pc - 1 = (opc : Int) := by omega
    exact exec_of_body_ok (i := .pc) ((congrArg (push · s) hoffset).trans (push_natCast hd hopc))
  · exact raisesFault_of_body (i := .pc) rfl (push_overflow (Nat.lt_succ_of_le hd.ge)) rfl

/-! ### Control transfers (R243) -/

/-- A step that decodes an instruction and does not fault ends as that instruction completes. -/
theorem step_ran {s t : State} {i : Instr} (h : Steps s) (hf : fetch s = .instr i) (hstep : step s = .next t)
    (hnf : t.status ≠ .faulted) : ∃ u, Ran i.op (entered s) u ∧ t = stoppedStatus u := by
  rw [step_of_fetch_instr h hf] at hstep
  rcases exec_cases i (entered s) with ⟨u, hex, hr⟩ | ⟨k, tg, u, hex, -⟩
  · rw [hex] at hstep
    cases hstep
    exact ⟨u, hr, rfl⟩
  · rw [hex, mapNext_next, stoppedStatus_takeFault] at hstep
    cases hstep
    exact absurd rfl hnf

/-- Settles O56: the instruction completes past its immediate, or as a jump to a member of JDS, and the last line of the
loop leaves pc alone. -/
theorem onlyJumpsTransferControl : Obligations.OnlyJumpsTransferControl := by
  intro s t i _ h h0 hdec hstep hnf
  obtain ⟨u, hr, rfl⟩ := step_ran h (fetch_of_decode h0 hdec) hstep hnf
  rw [stoppedStatus_pc]
  rcases hr.pc_cases with ⟨hpc, hop⟩ | ⟨hjump, hw⟩
  · refine .inl ⟨?_, fun hi => hop (congrArg Instr.op hi)⟩
    rw [hpc, State.withPc_pc, Instr.length]
    omega
  · exact .inr ⟨hjump.imp eq_toInstr_of_op eq_toInstr_of_op, hw⟩

end Sys2Proof.Machine
end

section
/-! SUPPORT. STOP and RETURN (44_termination.md R260 to R262): the two instructions that end a run, and the STOP that is
executed at the end of the code. -/

namespace Sys2Proof.Machine

/-! ### RETURN (R261) -/

/-- With the length within RETDATA_LIMIT, RETURN takes a range of memory as the return-data and stops. -/
theorem returnBody_ok {s : State} {off len : Word} {rest : List Word} (h : s.stack = off :: len :: rest)
    (hl : s.config.retdataLimit.exceededBy len.toNat = false) :
    returnBody s =
      .ok () (((s.withStack rest).withReturnData (s.memory.range off.toNat len.toNat)).withStopped true) := by
  rw [returnBody, popTwo_ok h, Prim.andThen_ok]
  exact if_neg (Bool.eq_false_iff.1 hl)

/-- The limit is checked after both pops and before anything is copied. -/
theorem returnBody_limit {s : State} {off len : Word} {rest : List Word} (h : s.stack = off :: len :: rest)
    (hl : s.config.retdataLimit.exceededBy len.toNat = true) :
    returnBody s = .raise .returnDataLimitExceeded none (s.withStack rest) := by
  rw [returnBody, popTwo_ok h, Prim.andThen_ok]
  exact if_pos hl

theorem returnBody_underflow {s : State} (h : s.stack.length < 2) :
    returnBody s = .raise .stackUnderflow none (s.withStack []) := by
  rw [returnBody, popTwo_underflow h, Prim.andThen_raise]

/-- Settles O44: the return-data is a range read of memory, of exactly `len` bytes, each one what `Memory.get` reads;
only the limit and the depth of the stack can stop it. -/
theorem returnResult : Obligations.ReturnResult := by
  refine ⟨encode_default_of_row (by decide) rfl, fun s off len rest h hl => ?_, fun _ _ hk => Memory.get_of_len_le hk,
    fun s off len rest h hl => ?_, fun s h => ?_⟩
  · exact ⟨s.memory.range off.toNat len.toNat, exec_of_body_ok (i := .ret) (returnBody_ok h hl), Memory.range_len ..,
      Memory.range_get _ _ _⟩
  · exact raisesFault_of_body (i := .ret) rfl (returnBody_limit h hl) rfl
  · exact raisesFault_of_body (i := .ret) rfl (returnBody_underflow h) rfl

/-! ### STOP, explicit or implicit (R260, R262) -/

/-- The last line of the loop after STOP: the flag is set and nothing was raised, so that the run ends. -/
theorem stoppedStatus_exec_stop {s : State} (h : s.status = .running) :
    mapNext stoppedStatus (exec .stop s) =
      .next (((s.withStopped true).withReturnData Memory.empty).withStatus .stopped) := by
  rw [exec_stop, mapNext_next]
  exact congrArg Host.Outcome.next (stoppedStatus_of_stopped h rfl)

/-- Settles O14: past the code `fetch` finds the implicit STOP, which runs with pc as it is. -/
theorem implicitStopEndsTheRun : Obligations.ImplicitStopEndsTheRun := by
  intro s h hpc
  have ⟨hrun, _⟩ := h
  rw [step_of_fetch_implicitStop h (fetch_implicitStop hpc)]
  exact stoppedStatus_exec_stop (s := s.withBudget s.budget.pred) hrun

/-- Settles O43: STOP raises nothing, its step is the one of the implicit STOP with pc past the opcode byte, and an
ended run has no step. -/
theorem stopResult : Obligations.StopResult := by
  refine ⟨encode_default_of_row (by decide) rfl, exec_stop, fun s op h h0 hop hslot => ?_, fun s t hstopped hstep => ?_⟩
  · have ⟨hrun, _⟩ := h
    rw [step_of_fetch_instr h (fetch_of_slot h0 hop hslot)]
    exact stoppedStatus_exec_stop (s := entered s) hrun
  · have hended : step s = .fault (.runEnded s.status) := step_ended (by simp [hstopped])
    cases hended.symm.trans hstep

end Sys2Proof.Machine
end

section
/-! SUPPORT. The numbers of the fault kinds and of the status (60_exceptions.md R271, 10_state.md R44). -/

namespace Sys2Proof

/-- The fault kinds in the order of R271. -/
def FaultKind.all : List FaultKind :=
  [.unknownOpcode, .invalidCodeOffset, .invalidJumpDestination, .stackUnderflow, .stackOverflow, .invalidStackItem,
   .invalidMemoryAccess, .invalidMemoryValue, .invalidCalldataAccess, .memoryLimitExceeded, .returnDataLimitExceeded,
   .duplicateOpcode]

theorem FaultKind.mem_all (k : FaultKind) : k ∈ FaultKind.all := by cases k <;> decide

theorem FaultKind.map_code_all : FaultKind.all.map FaultKind.code = [1, 2, 3, 4, 5, 6, 7, 8, 9, 10, 11, 15] := rfl

/-- No code stands twice in the list of R271. -/
theorem FaultKind.code_injective : Function.Injective FaultKind.code := fun k k' h =>
  List.inj_on_of_nodup_map (by rw [map_code_all]; decide) k.mem_all k'.mem_all h

/-- The code 0 is left for "no fault recorded" (R45). -/
theorem FaultKind.code_ne_zero (k : FaultKind) : k.code ≠ 0 := by
  have hk : k.code ∈ FaultKind.all.map FaultKind.code := List.mem_map_of_mem k.mem_all
  have h0 : 0 ∉ FaultKind.all.map FaultKind.code := by rw [map_code_all]; decide
  exact ne_of_mem_of_not_mem hk h0

end Sys2Proof

namespace Sys2Proof.Machine

theorem State.faultKindField_of_some {s : State} {r : FaultRecord} (h : s.fault = some r) :
    s.faultKindField = r.kind.code := by
  simp only [State.faultKindField, h]

theorem State.faultKindField_of_none {s : State} (h : s.fault = none) : s.faultKindField = 0 := by
  simp only [State.faultKindField, h]

theorem State.faultKindField_eq_zero_iff (s : State) : s.faultKindField = 0 ↔ s.fault = none := by
  cases h : s.fault with
  | none => exact iff_of_true (faultKindField_of_none h) rfl
  | some r => exact iff_of_false (faultKindField_of_some h ▸ r.kind.code_ne_zero) (Option.some_ne_none r)

/-- Settles O57: the list of R271 gives the codes, which it does not repeat and 0 is none of. -/
theorem kindAndStatusCodes : Obligations.KindAndStatusCodes :=
  ⟨FaultKind.map_code_all, fun _ _ h => FaultKind.code_injective h, State.faultKindField_eq_zero_iff, rfl⟩

end Sys2Proof.Machine
end

section
/-! SUPPORT. Faults and suspension as a step leaves them: the fault record (60_exceptions.md R273), and resuming a
Suspended run (R283, R284). -/

namespace Sys2Proof.Machine

/-! ### The fault record of a step (R273) -/

/-- A step whose instruction completes ends Stopped or Running (R44, R110). -/
theorem Ran.stoppedStatus_not_faulted {o : Op} {s t : State} (h : Ran o s t) (hrun : s.status = .running) :
    (stoppedStatus t).status ≠ .faulted := by
  obtain ⟨-, -, -, -, hstatus, -⟩ := h.unwritten
  rw [stoppedStatus_status (hstatus.trans hrun)]
  split <;> decide

/-- The target field belongs to one kind of record only: that of a bad jump holds the word on top of the stack. -/
def TargetOfKind (s : State) (k : FaultKind) (tg : Option Word) : Prop :=
  (k = .invalidJumpDestination → ∃ w, s.stack.head? = some w ∧ tg = some w) ∧
    (k ≠ .invalidJumpDestination → tg = none)

theorem Raised.targetOfKind {s t : State} {k : FaultKind} {tg : Option Word} (h : Raised s k tg t) :
    TargetOfKind s k tg := by
  rcases h.target with ⟨hk, hw⟩ | ⟨hk, htg⟩
  · exact ⟨fun _ => hw, fun hne => absurd hk hne⟩
  · exact ⟨fun heq => absurd heq hk, fun _ => htg⟩

/-- The record of a faulting step: without an opcode at a negative pc, and else with the opcode byte at pc. -/
theorem Stepped.fault_cases {s t : State} (h : Stepped s t) (hw : s.config.registry.wf = true)
    (hrun : s.status = .running) (hf : t.status = .faulted) :
    (s.pc < 0 ∧ t.fault = some ⟨.invalidCodeOffset, none, s.pc, none⟩) ∨
    (0 ≤ s.pc ∧ ∃ op k tg, s.code[s.pc.toNat]? = some op ∧ k ≠ .invalidCodeOffset ∧ TargetOfKind s k tg ∧
      t.fault = some ⟨k, some op, s.pc, tg⟩) := by
  cases h with
  | negativePc hpc => exact .inl ⟨hpc, rfl⟩
  | implicitStop => cases hf
  | unknown op hpc hop => exact .inr ⟨hpc, op, .unknownOpcode, none, hop, nofun, ⟨nofun, fun _ => rfl⟩, rfl⟩
  | ran _ _ _ _ _ _ _ hr => exact absurd hf (hr.stoppedStatus_not_faulted hrun)
  | raised op o k tg t hpc hop hslot _ hr =>
    obtain ⟨hreachable, -⟩ := hr.kind
    have hbyte : s.config.registry.byteOf o = some op := (Registry.slot_eq_op_iff hw).1 hslot
    have hk : k ≠ .invalidCodeOffset := ne_of_mem_of_not_mem hreachable (by decide)
    exact .inr ⟨hpc, op, k, tg, hop, hk, hr.targetOfKind, by rw [State.takeFault_fault, hbyte]⟩

/-- Settles O53: a step that faults decodes, as a step that only suspends does not fault, and its record is one of two
shapes, told apart by the sign of pc. -/
theorem faultRecordOfAStep : Obligations.FaultRecordOfAStep := by
  intro s t hw hrun hstep hf
  obtain ⟨-, ⟨-, rfl⟩ | ⟨-, ht⟩⟩ := step_cases hstep
  · cases hf
  rcases ht.fault_cases hw hrun hf with ⟨hpc, hrec⟩ | ⟨hpc, op, k, tg, hop, hk, ⟨hjump, hother⟩, hrec⟩
  · exact ⟨_, hrec, State.faultKindField_of_some hrec, rfl, iff_of_true rfl hpc, fun _ => rfl, fun hk => absurd rfl hk,
      nofun, fun _ => rfl⟩
  · exact ⟨_, hrec, State.faultKindField_of_some hrec, rfl, iff_of_false hk (Int.not_lt.2 hpc),
      fun hk' => absurd hk' hk, fun _ => ⟨op, hop, rfl⟩, hjump, hother⟩

/-! ### Resuming (R283, R284) -/

theorem resume_suspended {s : State} (budget : Bound) (h : s.status = .suspended) :
    resume budget s = .next ((s.withBudget budget).withStatus .running) := by
  simp only [resume, h]

theorem resume_refused {s : State} (budget : Bound) (h : s.status ≠ .suspended) :
    resume budget s = .refused .notSuspended := by
  unfold resume
  split
  · exact absurd ‹_› h
  · rfl

/-- Settles O16: suspending changes the status only, and resuming puts it back with the new budget. -/
theorem suspendedRunResumes : Obligations.SuspendedRunResumes := by
  refine ⟨fun s b hrun hb => ⟨_, step_suspends hrun (by rw [hb]; rfl), rfl, ?_⟩, fun s b h => resume_refused b h⟩
  rw [resume_suspended b rfl, ← hrun]
  rfl

end Sys2Proof.Machine
end

section
/-! SUPPORT. The start of a run and resuming one: what the host's two moves answer (70_reset_and_hazards.md R300, R301;
60_exceptions.md R283), and that both give a context that meets the invariant of a run. -/

namespace Sys2Proof

theorem Config.default_wf : Config.default.wf = true := by
  rw [Config.wf, Bool.and_eq_true]
  exact ⟨Registry.default_wf, rfl⟩

end Sys2Proof

namespace Sys2Proof.Machine

/-! ### What startRun answers (R97, R300) -/

theorem startRun_invalidConfiguration {c : Config} (code : List Byte) (cd : Option (List Byte)) (budget : Bound)
    (hw : c.wf = false) : startRun c code cd budget = .refused .invalidConfiguration := by
  rw [startRun, if_pos hw]

theorem startRun_codeTooLong {c : Config} {code : List Byte} (cd : Option (List Byte)) (budget : Bound)
    (hw : c.wf = true) (hl : c.codeMax.exceededBy code.length = true) :
    startRun c code cd budget = .refused .codeTooLong := by
  rw [startRun, if_neg (by simp [hw]), if_pos hl]

theorem startRun_starts {c : Config} {code : List Byte} (cd : Option (List Byte)) (budget : Bound) (hw : c.wf = true)
    (hl : c.codeMax.exceededBy code.length = false) :
    startRun c code cd budget = .next (startContext c code (cd.getD []) budget) := by
  rw [startRun, if_neg (by simp [hw]), if_neg (by simp [hl])]

/-- A start that is not refused passed both checks, and gives the context of R300. -/
theorem startRun_eq_next {c : Config} {code : List Byte} {cd : Option (List Byte)} {budget : Bound} {s : State}
    (h : startRun c code cd budget = .next s) :
    c.wf = true ∧ c.codeMax.exceededBy code.length = false ∧ s = startContext c code (cd.getD []) budget := by
  cases hw : c.wf with
  | false => cases (startRun_invalidConfiguration code cd budget hw).symm.trans h
  | true =>
    cases hl : c.codeMax.exceededBy code.length with
    | true => cases (startRun_codeTooLong cd budget hw hl).symm.trans h
    | false =>
      cases (startRun_starts cd budget hw hl).symm.trans h
      exact ⟨rfl, rfl, rfl⟩

/-- Settles O17: code that is too long is refused, the context of any other start is R300's, and the default registry
passes the checks of R97. -/
theorem startOfRunState : Obligations.StartOfRunState :=
  ⟨fun _ _ cd budget hw hl => startRun_codeTooLong cd budget hw hl,
    fun _ _ cd budget hw hl => startRun_starts cd budget hw hl,
    Registry.build_of_distinct (Registry.distinct_of_wf Registry.default_wf), Config.default_wf⟩

/-- Settles O18: the default configuration is valid and has no CODE_MAX, and the empty code has no jump destination. -/
theorem resetIsAStartOfRun : Obligations.ResetIsAStartOfRun :=
  startRun_starts none .infinite Config.default_wf rfl

/-! ### The invariant at the start of a run -/

theorem startContext_contextInv {c : Config} {code : List Byte} (calldata : List Byte) (budget : Bound)
    (hw : c.wf = true) (hl : c.codeMax.exceededBy code.length = false) :
    ContextInv (startContext c code calldata budget) where
  configWf := hw
  codeLimit := hl
  depth := Nat.zero_le _
  memoryWf := Memory.empty_wf
  memoryGranule := Nat.dvd_zero _
  memoryLimit := Bound.exceededBy_zero _
  memoryBound := Nat.zero_le _
  returnUnset _ := rfl
  returnWf := Memory.empty_wf
  returnLimit := Bound.exceededBy_zero _
  pcNonneg := Int.le_refl 0
  pcBound := Int.natCast_nonneg (code.length + 32)
  jdsOfCode := rfl

theorem startRun_runInv {c : Config} {code : List Byte} {cd : Option (List Byte)} {budget : Bound} {s : State}
    (h : startRun c code cd budget = .next s) : RunInv s := by
  obtain ⟨hw, hl, rfl⟩ := startRun_eq_next h
  exact ⟨.of_no_fault rfl (by simp [startContext]) nofun, fun _ => startContext_contextInv _ _ hw hl⟩

/-- Settles O49: the reset state is the context of a start of a run. -/
theorem resetMeetsRunInvariant : Obligations.ResetMeetsRunInvariant :=
  startRun_runInv resetIsAStartOfRun

/-! ### The invariant after a resume (R283) -/

theorem resume_eq_next {s t : State} {budget : Bound} (h : resume budget s = .next t) :
    s.status = .suspended ∧ t = (s.withBudget budget).withStatus .running := by
  by_cases hs : s.status = .suspended
  · rw [resume_suspended budget hs] at h
    cases h
    exact ⟨hs, rfl⟩
  · cases (resume_refused budget hs).symm.trans h

/-- A Suspended context is not stopped and has no fault record, so that it may go on as a Running one. -/
theorem RunInv.resume {s t : State} {budget : Bound} (h : RunInv s) (hres : resume budget s = .next t) : RunInv t := by
  obtain ⟨hs, rfl⟩ := resume_eq_next hres
  obtain ⟨ho, hc⟩ := h
  have hstopped : s.stopped = false := by simpa [hs] using ho.stoppedIff
  have hfault : s.fault = none := by simpa [hs] using ho.faultedIff
  have hcontext : ContextInv s := hc (by simp [hs])
  exact ⟨.of_no_fault hfault (by simp [hstopped]) (by simp), fun _ => (hcontext.withBudget budget).withStatus .running⟩

/-- Settles O50: the context of R300 meets the invariant, and a resume changes only the budget and the status. -/
theorem startAndResumeMeetRunInvariant : Obligations.StartAndResumeMeetRunInvariant :=
  ⟨fun _ _ _ _ _ h => startRun_runInv h, fun _ _ _ h hres => h.resume hres⟩

end Sys2Proof.Machine
end

section
/-! SUPPORT. A finite budget bounds a run (70_reset_and_hazards.md R316, 30_encoding.md R114). -/

namespace Sys2Proof.Machine

theorem run_succ_of_step {s t : State} (k : Nat) (h : step s = .next t) : core.run (k + 1) s = core.run k t := by
  have hcore : core.step s = .next t := h
  simp only [Host.Core.run, hcore]

/-- Settles O15, by induction on the budget: a used-up one suspends the run in one step, and any other step ends the run
or leaves a Running context with one less. -/
theorem finiteBudgetRunEnds : Obligations.FiniteBudgetRunEnds := by
  intro s n hrun hb
  induction n generalizing s with
  | zero =>
    have hstep : step s = .next (s.withStatus .suspended) := step_suspends hrun (by rw [hb]; rfl)
    exact ⟨1, s.withStatus .suspended, Nat.le_refl 1, run_succ_of_step 0 hstep, by simp⟩
  | succ n ih =>
    have hzero : s.budget.isZero = false := by rw [hb]; rfl
    obtain ⟨t, hstep, -⟩ := step_stepped ⟨hrun, hzero⟩
    by_cases ht : t.status = .running
    · have hbt : t.budget = .finite n := by
        rw [step_budget hzero hstep (by simp [ht]), hb]
        rfl
      obtain ⟨k, u, hk, hu, hended⟩ := ih t ht hbt
      exact ⟨k + 1, u, Nat.succ_le_succ hk, (run_succ_of_step k hstep).trans hu, hended⟩
    · exact ⟨1, t, by omega, run_succ_of_step 0 hstep, ht⟩

end Sys2Proof.Machine
end
